-- ==== Sys2Proof/Word.lean ====
section
/-! DEFINITION. The word types of the machine (00_scope.md R6, R8, R10; 10_state.md R21, R24). -/

namespace Sys2Proof

/-- An 8-bit value: a general register, a byte of memory, a literal `kk`. -/
abbrev Byte := BitVec 8

/-- A 16-bit value: an instruction word, `I`, `PC`, a stack entry. -/
abbrev Word := BitVec 16

/-- The 12-bit literal `nnn` of an instruction word. -/
abbrev Nnn := BitVec 12

/-- The index of a general register `V0..VF` (the fields `x` and `y`), or of a key. -/
abbrev Reg := Fin 16

end Sys2Proof
end

