-- ==== Sys2Proof/Syntax.lean ====
section
/-! DEFINITION. The 34 instructions of spec/opcode_table.json (30_encoding.md R93, R94), one constructor a row, each with the
fields its pattern names and no others (R92). `nnn` and `kk` are bit vectors because they are added to and compared with
words; `x` and `y` are register indices; `n` is a count, checked in WellFormed.lean (log 9). -/

namespace Sys2Proof

/-- A decoded instruction ("tagged instruction", R93). -/
inductive Instr where
  | cls                                    -- 00E0
  | ret                                    -- 00EE
  | jp (nnn : Nnn)                         -- 1nnn
  | call (nnn : Nnn)                       -- 2nnn
  | seVxKk (x : Reg) (kk : Byte)           -- 3xkk
  | sneVxKk (x : Reg) (kk : Byte)          -- 4xkk
  | seVxVy (x y : Reg)                     -- 5xy0
  | ldVxKk (x : Reg) (kk : Byte)           -- 6xkk
  | addVxKk (x : Reg) (kk : Byte)          -- 7xkk
  | ldVxVy (x y : Reg)                     -- 8xy0
  | or (x y : Reg)                         -- 8xy1
  | and (x y : Reg)                        -- 8xy2
  | xor (x y : Reg)                        -- 8xy3
  | addVxVy (x y : Reg)                    -- 8xy4
  | sub (x y : Reg)                        -- 8xy5
  | shr (x y : Reg)                        -- 8xy6, y decoded and ignored
  | subn (x y : Reg)                       -- 8xy7
  | shl (x y : Reg)                        -- 8xyE, y decoded and ignored
  | sneVxVy (x y : Reg)                    -- 9xy0
  | ldINnn (nnn : Nnn)                     -- Annn
  | jpV0Nnn (nnn : Nnn)                    -- Bnnn
  | rnd (x : Reg) (kk : Byte)              -- Cxkk
  | drw (x y : Reg) (n : Nat)              -- Dxyn
  | skp (x : Reg)                          -- Ex9E
  | sknp (x : Reg)                         -- ExA1
  | ldVxDt (x : Reg)                       -- Fx07
  | ldVxK (x : Reg)                        -- Fx0A
  | ldDtVx (x : Reg)                       -- Fx15
  | ldStVx (x : Reg)                       -- Fx18
  | addIVx (x : Reg)                       -- Fx1E
  | ldFVx (x : Reg)                        -- Fx29
  | ldBVx (x : Reg)                        -- Fx33
  | ldMemVx (x : Reg)                      -- Fx55
  | ldVxMem (x : Reg)                      -- Fx65
  deriving DecidableEq, Repr

end Sys2Proof
end

