-- ==== Sys2Proof/WellFormed.lean ====
section
/-! DEFINITION. Which instructions the encoding can write (30_encoding.md R91, R92). Register indices, `kk` and `nnn` have the
width of their fields by their types; the one operand that is a plain number is the row count of `DRW`. -/

namespace Sys2Proof

/-- The row count `n` of `DRW` fits its 4-bit field: "`n` is a 4-bit count 0..15" (R92). -/
def rowCountFits (n : Nat) : Bool := n < 16

/-- The check, one arm per constructor. -/
def Instr.wellFormed : Instr → Bool
  | .drw _ _ n => rowCountFits n
  | .cls | .ret | .jp _ | .call _ | .seVxKk _ _ | .sneVxKk _ _ | .seVxVy _ _ | .ldVxKk _ _ | .addVxKk _ _
  | .ldVxVy _ _ | .or _ _ | .and _ _ | .xor _ _ | .addVxVy _ _ | .sub _ _ | .shr _ _ | .subn _ _ | .shl _ _
  | .sneVxVy _ _ | .ldINnn _ | .jpV0Nnn _ | .rnd _ _ | .skp _ | .sknp _ | .ldVxDt _ | .ldVxK _ | .ldDtVx _
  | .ldStVx _ | .addIVx _ | .ldFVx _ | .ldBVx _ | .ldMemVx _ | .ldVxMem _ => true

/-- An instruction that some word encodes. -/
abbrev Instr.WellFormed (i : Instr) : Prop := i.wellFormed = true

end Sys2Proof
end

