-- ==== Sys2Proof/Decode.lean ====
section
/-! DEFINITION. The decoder (30_encoding.md R90 to R96), the opcode map as data (R94), and after them the encoder, all written
from the spec's patterns. The decoder reads nothing but the word and writes nothing (R93). -/

namespace Sys2Proof

/-! ### Fields and byte order -/

/-- `w[15:12]`, the major opcode (00_scope.md R10, R91). -/
def fieldT (w : Word) : Nat := (w.extractLsb' 12 4).toNat

/-- `w[11:8]`, a register index. -/
def fieldX (w : Word) : Reg := (w.extractLsb' 8 4).toFin

/-- `w[7:4]`, a register index. -/
def fieldY (w : Word) : Reg := (w.extractLsb' 4 4).toFin

/-- `w[3:0]`, a literal count or a minor opcode. -/
def fieldN (w : Word) : Nat := (w.extractLsb' 0 4).toNat

/-- `w[7:0]`, a literal byte or a minor opcode. -/
def fieldKk (w : Word) : Byte := w.extractLsb' 0 8

/-- `w[11:0]`, an address or a literal. -/
def fieldNnn (w : Word) : Nnn := w.extractLsb' 0 12

/-- The word whose high byte is `hi`, the byte at the lower address (20_memory.md R64). -/
def bigEndian (hi lo : Byte) : Word := (hi.setWidth 16 <<< 8) ||| lo.setWidth 16

/-- The byte a big-endian word has at its lower address. -/
def highByte (w : Word) : Byte := w.extractLsb' 8 8

/-- The byte a big-endian word has at its higher address. -/
def lowByte (w : Word) : Byte := w.extractLsb' 0 8

/-! ### The decoder -/

/-- Why no instruction is read. -/
inductive DecodeError where
  /-- No row of R94 matches the word (R96); raised by `decodeWord`; the step turns it into the fault `DecodeError(w)`. -/
  | illegal (w : Word)
  /-- Fewer than two bytes are given; every instruction has two (R90). Raised by `decode` only, never in a step. -/
  | tooShort
  deriving DecidableEq, Repr

/-- The minor opcodes of the row group `8xy?`, by `n` (R93). -/
def decodeAlu (w : Word) (x y : Reg) : Except DecodeError Instr :=
  match fieldN w with
  | 0x0 => .ok (.ldVxVy x y)
  | 0x1 => .ok (.or x y)
  | 0x2 => .ok (.and x y)
  | 0x3 => .ok (.xor x y)
  | 0x4 => .ok (.addVxVy x y)
  | 0x5 => .ok (.sub x y)
  | 0x6 => .ok (.shr x y)
  | 0x7 => .ok (.subn x y)
  | 0xE => .ok (.shl x y)
  | _ => .error (.illegal w)

/-- The minor opcodes of the row group `Ex??`, by `kk` (R93). -/
def decodeKey (w : Word) (x : Reg) : Except DecodeError Instr :=
  if fieldKk w = 0x9E then .ok (.skp x)
  else if fieldKk w = 0xA1 then .ok (.sknp x)
  else .error (.illegal w)

/-- The minor opcodes of the row group `Fx??`, by `kk` (R93). -/
def decodeMisc (w : Word) (x : Reg) : Except DecodeError Instr :=
  if fieldKk w = 0x07 then .ok (.ldVxDt x)
  else if fieldKk w = 0x0A then .ok (.ldVxK x)
  else if fieldKk w = 0x15 then .ok (.ldDtVx x)
  else if fieldKk w = 0x18 then .ok (.ldStVx x)
  else if fieldKk w = 0x1E then .ok (.addIVx x)
  else if fieldKk w = 0x29 then .ok (.ldFVx x)
  else if fieldKk w = 0x33 then .ok (.ldBVx x)
  else if fieldKk w = 0x55 then .ok (.ldMemVx x)
  else if fieldKk w = 0x65 then .ok (.ldVxMem x)
  else .error (.illegal w)

/-- The decoder of R93, total on every word. -/
def decodeWord (w : Word) : Except DecodeError Instr :=
  match fieldT w with
  | 0x0 => if w = 0x00E0 then .ok .cls else if w = 0x00EE then .ok .ret else .error (.illegal w)
  | 0x1 => .ok (.jp (fieldNnn w))
  | 0x2 => .ok (.call (fieldNnn w))
  | 0x3 => .ok (.seVxKk (fieldX w) (fieldKk w))
  | 0x4 => .ok (.sneVxKk (fieldX w) (fieldKk w))
  | 0x5 => if fieldN w = 0 then .ok (.seVxVy (fieldX w) (fieldY w)) else .error (.illegal w)
  | 0x6 => .ok (.ldVxKk (fieldX w) (fieldKk w))
  | 0x7 => .ok (.addVxKk (fieldX w) (fieldKk w))
  | 0x8 => decodeAlu w (fieldX w) (fieldY w)
  | 0x9 => if fieldN w = 0 then .ok (.sneVxVy (fieldX w) (fieldY w)) else .error (.illegal w)
  | 0xA => .ok (.ldINnn (fieldNnn w))
  | 0xB => .ok (.jpV0Nnn (fieldNnn w))
  | 0xC => .ok (.rnd (fieldX w) (fieldKk w))
  | 0xD => .ok (.drw (fieldX w) (fieldY w) (fieldN w))
  | 0xE => decodeKey w (fieldX w)
  | 0xF => decodeMisc w (fieldX w)
  | _ => .error (.illegal w)  -- never reached: `fieldT` is below 16

/-- The decoder on bytes: one instruction and the bytes after it (R64, R90). -/
def decode : List Byte → Except DecodeError (Instr × List Byte)
  | hi :: lo :: rest =>
    match decodeWord (bigEndian hi lo) with
    | .ok i => .ok (i, rest)
    | .error e => .error e
  | _ => .error .tooShort

/-- The instruction the decoder reads from a word numbered as spec/opcode_table.json numbers it: the table's number IS the
16-bit word, whose high byte the hardware stores first. -/
def decodeTableWord (nbits w : Nat) : Option Instr :=
  let word : Word := BitVec.ofNat 16 (w % 2 ^ nbits)
  match decode [highByte word, lowByte word] with
  | .ok (i, _) => some i
  | .error _ => none

/-! ### The encoder -/

/-- The word `tttt aaaa bbbb cccc` (formats XYF and XYN of R91). -/
def packNibbles (t a b c : Nat) : Word := BitVec.ofNat 16 (t * 0x1000 + a * 0x100 + b * 0x10 + c)

/-- The word `tttt xxxx kkkk kkkk` (formats XKK and XF of R91). -/
def packXKk (t : Nat) (x : Reg) (kk : Byte) : Word := BitVec.ofNat 16 (t * 0x1000 + x.val * 0x100 + kk.toNat)

/-- The word `tttt nnnn nnnn nnnn` (format ADDR of R91). -/
def packNnn (t : Nat) (nnn : Nnn) : Word := BitVec.ofNat 16 (t * 0x1000 + nnn.toNat)

/-- The word of a well-formed instruction, from the patterns of R94. -/
def encode : Instr → Word
  | .cls => 0x00E0
  | .ret => 0x00EE
  | .jp nnn => packNnn 0x1 nnn
  | .call nnn => packNnn 0x2 nnn
  | .seVxKk x kk => packXKk 0x3 x kk
  | .sneVxKk x kk => packXKk 0x4 x kk
  | .seVxVy x y => packNibbles 0x5 x.val y.val 0x0
  | .ldVxKk x kk => packXKk 0x6 x kk
  | .addVxKk x kk => packXKk 0x7 x kk
  | .ldVxVy x y => packNibbles 0x8 x.val y.val 0x0
  | .or x y => packNibbles 0x8 x.val y.val 0x1
  | .and x y => packNibbles 0x8 x.val y.val 0x2
  | .xor x y => packNibbles 0x8 x.val y.val 0x3
  | .addVxVy x y => packNibbles 0x8 x.val y.val 0x4
  | .sub x y => packNibbles 0x8 x.val y.val 0x5
  | .shr x y => packNibbles 0x8 x.val y.val 0x6
  | .subn x y => packNibbles 0x8 x.val y.val 0x7
  | .shl x y => packNibbles 0x8 x.val y.val 0xE
  | .sneVxVy x y => packNibbles 0x9 x.val y.val 0x0
  | .ldINnn nnn => packNnn 0xA nnn
  | .jpV0Nnn nnn => packNnn 0xB nnn
  | .rnd x kk => packXKk 0xC x kk
  | .drw x y n => packNibbles 0xD x.val y.val n
  | .skp x => packXKk 0xE x 0x9E
  | .sknp x => packXKk 0xE x 0xA1
  | .ldVxDt x => packXKk 0xF x 0x07
  | .ldVxK x => packXKk 0xF x 0x0A
  | .ldDtVx x => packXKk 0xF x 0x15
  | .ldStVx x => packXKk 0xF x 0x18
  | .addIVx x => packXKk 0xF x 0x1E
  | .ldFVx x => packXKk 0xF x 0x29
  | .ldBVx x => packXKk 0xF x 0x33
  | .ldMemVx x => packXKk 0xF x 0x55
  | .ldVxMem x => packXKk 0xF x 0x65

/-- The two bytes of a well-formed instruction as memory holds them. -/
def encodeBytes (i : Instr) : List Byte := [highByte (encode i), lowByte (encode i)]

/-! ### The opcode map -/

/-- One row of the opcode map (R94): a word `w` belongs to it when `w &&& mask = pattern`. -/
structure OpcodeRow where
  mask : Word
  pattern : Word
  deriving DecidableEq, Repr

/-- Whether a word belongs to a row. -/
def OpcodeRow.accepts (r : OpcodeRow) (w : Word) : Bool := w &&& r.mask = r.pattern

/-- The row of each tag, in the order of R94. -/
def opcodeRow : Instr → OpcodeRow
  | .cls => ⟨0xFFFF, 0x00E0⟩
  | .ret => ⟨0xFFFF, 0x00EE⟩
  | .jp _ => ⟨0xF000, 0x1000⟩
  | .call _ => ⟨0xF000, 0x2000⟩
  | .seVxKk _ _ => ⟨0xF000, 0x3000⟩
  | .sneVxKk _ _ => ⟨0xF000, 0x4000⟩
  | .seVxVy _ _ => ⟨0xF00F, 0x5000⟩
  | .ldVxKk _ _ => ⟨0xF000, 0x6000⟩
  | .addVxKk _ _ => ⟨0xF000, 0x7000⟩
  | .ldVxVy _ _ => ⟨0xF00F, 0x8000⟩
  | .or _ _ => ⟨0xF00F, 0x8001⟩
  | .and _ _ => ⟨0xF00F, 0x8002⟩
  | .xor _ _ => ⟨0xF00F, 0x8003⟩
  | .addVxVy _ _ => ⟨0xF00F, 0x8004⟩
  | .sub _ _ => ⟨0xF00F, 0x8005⟩
  | .shr _ _ => ⟨0xF00F, 0x8006⟩
  | .subn _ _ => ⟨0xF00F, 0x8007⟩
  | .shl _ _ => ⟨0xF00F, 0x800E⟩
  | .sneVxVy _ _ => ⟨0xF00F, 0x9000⟩
  | .ldINnn _ => ⟨0xF000, 0xA000⟩
  | .jpV0Nnn _ => ⟨0xF000, 0xB000⟩
  | .rnd _ _ => ⟨0xF000, 0xC000⟩
  | .drw _ _ _ => ⟨0xF000, 0xD000⟩
  | .skp _ => ⟨0xF0FF, 0xE09E⟩
  | .sknp _ => ⟨0xF0FF, 0xE0A1⟩
  | .ldVxDt _ => ⟨0xF0FF, 0xF007⟩
  | .ldVxK _ => ⟨0xF0FF, 0xF00A⟩
  | .ldDtVx _ => ⟨0xF0FF, 0xF015⟩
  | .ldStVx _ => ⟨0xF0FF, 0xF018⟩
  | .addIVx _ => ⟨0xF0FF, 0xF01E⟩
  | .ldFVx _ => ⟨0xF0FF, 0xF029⟩
  | .ldBVx _ => ⟨0xF0FF, 0xF033⟩
  | .ldMemVx _ => ⟨0xF0FF, 0xF055⟩
  | .ldVxMem _ => ⟨0xF0FF, 0xF065⟩

/-- The 34 rows of R94 as a list, in its order; one instruction of each tag stands for its row. -/
def opcodeTable : List OpcodeRow :=
  [.cls, .ret, .jp 0, .call 0, .seVxKk 0 0, .sneVxKk 0 0, .seVxVy 0 0, .ldVxKk 0 0, .addVxKk 0 0].map opcodeRow
  ++ [.ldVxVy 0 0, .or 0 0, .and 0 0, .xor 0 0, .addVxVy 0 0, .sub 0 0, .shr 0 0, .subn 0 0, .shl 0 0].map opcodeRow
  ++ [.sneVxVy 0 0, .ldINnn 0, .jpV0Nnn 0, .rnd 0 0, .drw 0 0 0, .skp 0, .sknp 0].map opcodeRow
  ++ [.ldVxDt 0, .ldVxK 0, .ldDtVx 0, .ldStVx 0, .addIVx 0, .ldFVx 0, .ldBVx 0, .ldMemVx 0, .ldVxMem 0].map opcodeRow

end Sys2Proof
end

