-- ==== Sys2Proof/Config.lean ====
section
/-! DEFINITION. What is fixed for one machine: the implementation parameters of 00_scope.md R6 and R7, and the FREE
VALUES the spec leaves open. A free value is a constant with no body, applied to the counter `State.draws`: nothing can
evaluate it, so whatever is proved holds for every value of it. -/

namespace Sys2Proof

/-- The named model arguments that a step or the initial image depends on (00_scope.md R6; the list of arguments of
92_eei_decisions.md). They are kept in the state and no step changes them. DESIGN CHOICE (log 6). -/
structure Params where
  /-- `FX0A_ACCEPTS_STALE_EDGE`: whether a press recorded before an `Fx0A` arms completes it (D17). -/
  acceptsStaleEdge : Bool
  /-- `FONT_BASE`: any address with `FONT_BASE + 80 ≤ 0x200` (R7, D3). -/
  fontBase : Fin 433
  /-- `FONT_TABLE`: row `r` of glyph `d` is entry `5d + r`, its four pixels; the low nibble of every byte is zero (10_state.md R36,
  D4; log 12). -/
  fontRows : Vector (BitVec 4) 80
  deriving DecidableEq, Repr

namespace Config

/-- `MEM_SIZE`, in bytes (R6, R60). -/
abbrev memSize : Nat := 0x1000

/-- `PROG_BASE`: where a ROM is loaded and where execution starts (R6, R301). -/
abbrev progBase : Nat := 0x200

/-- `ROM_MAX`, in bytes (R6, R65). -/
abbrev romMax : Nat := 3584

/-- `FONT_SIZE`, in bytes (R6). -/
abbrev fontSize : Nat := 80

/-- `W`, the columns of the display (R6, R31). -/
abbrev dispWidth : Nat := 64

/-- `H`, the rows of the display (R6, R31; 90_conflicts.md C2). -/
abbrev dispHeight : Nat := 32

/-- `RNG`: the byte that draw number `k` of the injected source yields, any value (R35, R172, D26; log 5). -/
opaque randomByte : Nat → Byte

/-! After a fault the state other than `fault`, `DT` and `ST` is unspecified (60_exceptions.md R252, 40_executor.md R126,
D21). Each of these is one part of it (log 8). -/

/-- `V[x]` after a fault. -/
opaque afterFaultV : Nat → Reg → Byte

/-- `I` after a fault. -/
opaque afterFaultI : Nat → Word

/-- `PC` after a fault. -/
opaque afterFaultPc : Nat → Word

/-- `stack[j]` after a fault. -/
opaque afterFaultStack : Nat → Fin 16 → Word

/-- `SP` after a fault. -/
opaque afterFaultSp : Nat → Fin 17

/-- `mem[a]` after a fault. -/
opaque afterFaultMem : Nat → Nat → Byte

/-- `disp[c][r]` after a fault, by row `r` and column `c`. -/
opaque afterFaultDisp : Nat → Fin 32 → Fin 64 → Bool

/-- `keys[k]` after a fault. -/
opaque afterFaultKeys : Nat → Fin 16 → Bool

/-- `last_edge` after a fault: its three parts, or none. -/
opaque afterFaultEdge : Nat → Option (Fin 16 × Bool × Bool)

/-- The register of a pending hook after a fault, or none. -/
opaque afterFaultHook : Nat → Option Reg

end Config

end Sys2Proof
end

