-- ==== Sys2Proof/Machine/Font.lean ====
section
/-! DEFINITION. The font: the default of the model argument `FONT_TABLE` and what an argument's rows are as bytes (10_state.md R36,
00_scope.md R6 and R7, decisions D3 and D4). -/

namespace Sys2Proof.Machine

open Config

/-- The conventional table of R36, the default of `FONT_TABLE`. PRESUMED: the spec takes these bytes from general knowledge (log 1). -/
def fontTable : List Byte :=
  [0xF0, 0x90, 0x90, 0x90, 0xF0] ++ [0x20, 0x60, 0x20, 0x20, 0x70]        -- 0 1
  ++ [0xF0, 0x10, 0xF0, 0x80, 0xF0] ++ [0xF0, 0x10, 0xF0, 0x10, 0xF0]     -- 2 3
  ++ [0x90, 0x90, 0xF0, 0x10, 0x10] ++ [0xF0, 0x80, 0xF0, 0x10, 0xF0]     -- 4 5
  ++ [0xF0, 0x80, 0xF0, 0x90, 0xF0] ++ [0xF0, 0x10, 0x20, 0x40, 0x40]     -- 6 7
  ++ [0xF0, 0x90, 0xF0, 0x90, 0xF0] ++ [0xF0, 0x90, 0xF0, 0x10, 0xF0]     -- 8 9
  ++ [0xF0, 0x90, 0xF0, 0x90, 0x90] ++ [0xE0, 0x90, 0xE0, 0x90, 0xE0]     -- A B
  ++ [0xF0, 0x80, 0x80, 0x80, 0xF0] ++ [0xE0, 0x90, 0x90, 0x90, 0xE0]     -- C D
  ++ [0xF0, 0x80, 0xF0, 0x80, 0xF0] ++ [0xF0, 0x80, 0xF0, 0x80, 0x80]     -- E F

/-- The four pixels, bits 7 to 4, of every byte of the conventional table. -/
def defaultFontRows : Vector (BitVec 4) 80 := Vector.ofFn fun k => (fontTable.getD k.val 0).extractLsb' 4 4

/-- The model arguments at the spec's defaults (R6). -/
def defaultParams : Params := ⟨false, 0, defaultFontRows⟩

/-- Byte `k` of the font: a row's four pixels, "MSB-aligned in a byte" (R36). -/
def fontByte (p : Params) (k : Nat) : Byte := if h : k < fontSize then (p.fontRows[k]'h).setWidth 8 <<< 4 else 0

end Sys2Proof.Machine
end

