-- ==== Sys2Proof/Machine/State.lean ====
section
/-! DEFINITION. What the machine is at one moment (10_state.md R20 to R37), why a step can stop (60_exceptions.md R250), and the
state after reset (R37). Plain data. -/

namespace Sys2Proof.Machine

/-- The operation hint a successful `step()` returns to the host (40_executor.md R120, R123, R125): advice, it changes nothing. -/
inductive Hint where
  | none | draw | clear | wait | sound
  deriving DecidableEq, Repr

/-- What the keypad latches of the most recent single-key update (10_state.md R32). -/
structure Edge where
  index : Fin 16
  previous : Bool
  current : Bool
  deriving DecidableEq, Repr

/-- The post-resume hook slot (10_state.md R30). -/
inductive Hook where
  | none
  | waitKey (x : Reg)
  deriving DecidableEq, Repr

/-- An atomic event of one of the agents (20_memory.md R70, R71; 60_exceptions.md R270, R275 to R277). -/
inductive Event where
  /-- The host calls `step()`: the executor moves. -/
  | step
  /-- A tick of the delay timer. -/
  | tickDT
  /-- A tick of the sound timer. -/
  | tickST
  /-- The host's `set_key(i, v)`. -/
  | setKey (i : Nat) (v : Bool)
  /-- The host's `toggle_key(i)`. -/
  | toggleKey (i : Nat)
  /-- The host's `set_all(bits)`. -/
  | setAll (bits : Vector Bool 16)
  deriving DecidableEq, Repr

/-- The faults of 60_exceptions.md R250, each fatal. All are the spec's, so stopping is what the hardware does; "safe" where the
spec itself calls the fault one the repository may lack (92_eei_decisions.md, column Errs). -/
inductive Fault where
  /-- E1, raised by any step's decode: the word matches no row of R94. Safe: the spec's own fault. -/
  | decodeError (w : Word)
  /-- E2, raised by any step's fetch: `PC + 1 ≥ 4096`. Safe: the spec's own fault. -/
  | fetchError (pc : Word)
  /-- E3, raised by `JP`, `CALL`, `RET`, `JP V0`: the target is outside `[0x200, 0x1000)`. Safe. -/
  | jumpOutOfBounds (a : Nat)
  /-- E4, raised by `CALL` when `SP = 16`. Safe: the spec's own fault. -/
  | stackOverflow
  /-- E5, raised by `RET` when `SP = 0`. Safe: the spec's own fault. -/
  | stackUnderflow
  /-- E6, raised by `LD F, Vx` when `V[x] > 0x0F`. Safe (D15). -/
  | fontIndexOutOfRange (v : Byte)
  /-- E7, raised by `DRW`, `LD B`, `LD [I]`, `LD Vx, [I]`: the first address of the access at or beyond 4096. Safe (D8). -/
  | memoryBounds (a : Nat)
  /-- E8, raised by `SKP`, `SKNP` when `V[x] > 0x0F`. Safe (D19). -/
  | keyIndexOutOfRange (v : Byte)
  deriving DecidableEq, Repr

/-- A refusal is the model's, not the machine's. Every instruction has its meaning, so no step of this model refuses. -/
inductive Refusal where
  /-- Raised by `exec` for an instruction that has no meaning yet. Safe: nothing is proved of a step that stops. -/
  | notModelled (mnemonic : String)
  deriving DecidableEq, Repr

/-- Memory: the bytes that differ from the reset image, at strictly rising addresses (20_memory.md R60, R65; log 11). -/
abbrev Memory := List Host.Cell

/-- The display, 32 rows of 64 cells, row 0 at the top, column 0 at the left (10_state.md R31, decision D2). -/
abbrev Display := Vector (Vector Bool 64) 32

/-- The state of the machine (10_state.md R20). The last four fields are the model's own (INVENTORY.md, logs 4 to 8). -/
structure State where
  /-- `V[0..15]` (R21); `V[15]` is `VF` (R23). -/
  v : Vector Byte 16
  /-- `I` (R26). -/
  i : Word
  /-- `PC` (R24, R25). -/
  pc : Word
  /-- `stack[0..15]` (R27). -/
  stack : Vector Word 16
  /-- `SP`, the number of entries held (R27). -/
  sp : Fin 17
  /-- `DT` (R28). -/
  dt : Byte
  /-- `ST` (R28). -/
  st : Byte
  /-- `mem[0..4095]` (R33). -/
  mem : Memory
  /-- `disp` (R31). -/
  disp : Display
  /-- `keys[0..15]` (R32). -/
  keys : Vector Bool 16
  /-- `last_edge` (R32). -/
  lastEdge : Option Edge
  /-- `hook` (R30). -/
  hook : Hook
  /-- `fault` (R34). -/
  fault : Option Fault
  /-- Model's own: the named model arguments of 00_scope.md R6; no step changes them. -/
  params : Params
  /-- Model's own: the hint the last completed `step()` returned (40_executor.md R120). -/
  hint : Hint
  /-- Model's own: how many free values have been drawn. -/
  draws : Nat
  /-- Model's own: the events that come next, in order; when it is empty the executor moves (20_memory.md R71; log 4). -/
  schedule : List Event
  deriving DecidableEq, Repr

/-- The state after construction with no ROM bytes (R37), for any value of the named model arguments: `Params`, `INIT_REGS`
(00_scope.md R6, decision D6), and the events that come first (the argument `schedule` of 92_eei_decisions.md, D25). -/
def State.resetWith (params : Params) (initV : Vector Byte 16) (initI : Word) (schedule : List Event) : State where
  v := initV
  i := initI
  pc := 0x200
  stack := Vector.replicate 16 0
  sp := 0
  dt := 0
  st := 0
  mem := []
  disp := Vector.replicate 32 (Vector.replicate 64 false)
  keys := Vector.replicate 16 false
  lastEdge := none
  hook := .none
  fault := none
  params := params
  hint := .none
  draws := 0
  schedule := schedule

/-- The machine right after reset, with the spec's defaults for its arguments (R37). -/
def State.reset : State := State.resetWith defaultParams (Vector.replicate 16 0) 0 []

end Sys2Proof.Machine
end

