-- ==== Sys2Proof/Machine/Ops.lean ====
section
/-! DEFINITION. The named operations over memory, the return stack, the display, the program counter and the fault record
(20_memory.md, 10_state.md R27, 44_display.md R212 and R213, 40_executor.md R124, 60_exceptions.md R251). -/

namespace Sys2Proof.Machine

open Config

/-- What one instruction or one step answers. -/
abbrev Result := Host.Outcome State Fault Refusal

/-! ### Memory -/

/-- What each address reads as when nothing is listed for it. -/
abbrev Image := Nat → Byte

/-- The image before ROM load: the font at `FONT_BASE`, zero elsewhere (R65). -/
def initialByte (p : Params) : Image := fun a =>
  if p.fontBase.val ≤ a ∧ a < p.fontBase.val + fontSize then fontByte p (a - p.fontBase.val) else 0

/-- The one canonical form of memory over an image: strictly rising addresses inside memory, and no entry equal to what an
unlisted address reads as. -/
abbrev Memory.wf (img : Image) (m : Memory) : Prop :=
  m.Pairwise (fun p q => p.1 < q.1) ∧ ∀ p ∈ m, p.1 < memSize ∧ p.2 ≠ img p.1

/-- The byte at an address. Addresses outside memory are ruled out by the checks before each access. -/
def Memory.read (img : Image) : Memory → Nat → Byte
  | [], a => img a
  | (k, b) :: m, a => if k = a then b else Memory.read img m a

/-- `m` with byte `b` in front at address `a`, unless that is what the address reads as anyway. -/
def Memory.cons (img : Image) (a : Nat) (b : Byte) (m : Memory) : Memory := if b = img a then m else (a, b) :: m

/-- `mem[a] <- b`, keeping the canonical form. -/
def Memory.write (img : Image) : Memory → Nat → Byte → Memory
  | [], a, b => Memory.cons img a b []
  | (k, c) :: m, a, b =>
    if a < k then Memory.cons img a b ((k, c) :: m)
    else if a = k then Memory.cons img a b m
    else (k, c) :: Memory.write img m a b

/-- The `n` bytes at `a, a+1, ...` (`MemRead` of 00_scope.md R9, byte by byte). -/
def Memory.readBytes (img : Image) (m : Memory) : Nat → Nat → List Byte
  | _, 0 => []
  | a, n + 1 => Memory.read img m a :: Memory.readBytes img m (a + 1) n

/-- `MemWrite` of 00_scope.md R9: the bytes go to consecutive rising addresses (R67). -/
def Memory.writeBytes (img : Image) (m : Memory) : Nat → List Byte → Memory
  | _, [] => m
  | a, b :: bs => Memory.writeBytes img (Memory.write img m a b) (a + 1) bs

/-- The canonical memory whose byte at each address below 4096 is `f` of it. -/
def Memory.ofBytes (img : Image) (f : Nat → Byte) : Memory :=
  (List.range memSize).filterMap fun a => if f a = img a then none else some (a, f a)

/-- The image under a state's memory. -/
def State.image (s : State) : Image := initialByte s.params

/-- A state's memory is in its canonical form. -/
abbrev State.MemWf (s : State) : Prop := Memory.wf s.image s.mem

/-- The byte of the machine's memory at an address. -/
def State.byteAt (s : State) (a : Nat) : Byte := Memory.read s.image s.mem a

/-- Store bytes at consecutive addresses from `a`. -/
def State.storeBytes (s : State) (a : Nat) (bs : List Byte) : State :=
  { s with mem := Memory.writeBytes s.image s.mem a bs }

/-- The smallest address at or beyond 4096 among the `n` addresses from `a` (R62), computed without wrap. -/
def firstOutside (a n : Nat) : Option Nat := ((List.range n).map (a + ·)).find? (memSize ≤ ·)

/-- The bounds check of a data access, before anything is written (R62). -/
def checkAccess (a n : Nat) (body : Result) : Result :=
  match firstOutside a n with
  | some bad => .fault (.memoryBounds bad)
  | none => body

/-! ### The return stack -/

/-- `Push(v)` (R27): none when the stack is full. -/
def State.push (s : State) (a : Word) : Option State :=
  if h : s.sp.val < 16 then some { s with stack := s.stack.set s.sp.val a h, sp := ⟨s.sp.val + 1, by omega⟩ } else none

/-- `Pop()` (R27): none when the stack is empty; else the entry and the state without it. -/
def State.pop (s : State) : Option (Word × State) :=
  if h : 0 < s.sp.val then
    some (s.stack[s.sp.val - 1]'(by omega), { s with sp := ⟨s.sp.val - 1, by omega⟩ })
  else none

/-! ### The display -/

/-- `disp[c][r]`; a cell outside the grid, which nothing asks for, is unlit. -/
def Display.cell (d : Display) (c r : Nat) : Bool :=
  if hr : r < 32 then if hc : c < 64 then (d[r]'hr)[c]'hc else false else false

/-- The display with `disp[c][r]` turned over. -/
def Display.flip (d : Display) (c r : Nat) : Display :=
  if hr : r < 32 then
    if hc : c < 64 then d.set r ((d[r]'hr).set c (!(d[r]'hr)[c]'hc) hc) hr else d
  else d

/-- `clear()` (R212). -/
def Display.clear : Display := Vector.replicate 32 (Vector.replicate 64 false)

/-- One pixel of the blit: the display and the collision bit so far (R213). -/
def xorPixel (c r : Nat) (bit : Bool) (p : Display × Bool) : Display × Bool :=
  if bit then
    if dispWidth ≤ c then p
    else (Display.flip p.1 c r, p.2 || Display.cell p.1 c r)
  else p

/-- The pixels `k, k+1, ...` of one row, bit 7 the leftmost (R213); `left` is how many are still to come. -/
def xorPixels (sx r : Nat) (b : Byte) : Nat → Nat → Display × Bool → Display × Bool
  | _, 0, p => p
  | k, left + 1, p => xorPixels sx r b (k + 1) left (xorPixel (sx + k) r (b.getLsbD (7 - k)) p)

/-- One row of the blit (R213). -/
def xorRow (sx r : Nat) (b : Byte) (p : Display × Bool) : Display × Bool :=
  if dispHeight ≤ r then p else xorPixels sx r b 0 8 p

/-- The rows `r, r+1, ...` of the blit (R213). -/
def xorRows (sx : Nat) : Nat → List Byte → Display × Bool → Display × Bool
  | _, [], p => p
  | r, b :: bs, p => xorRows sx (r + 1) bs (xorRow sx r b p)

/-- `xor_sprite(sx, sy, bytes)` (R213): the display after the blit and the collision bit. -/
def xorSprite (sx sy : Nat) (bytes : List Byte) (d : Display) : Display × Bool := xorRows sx sy bytes (d, false)

/-! ### The program counter -/

/-- The PC directive an instruction chooses (40_executor.md R123). -/
inductive Directive where
  | next | skip | stay
  | jump (a : Nat)
  deriving DecidableEq, Repr

/-- The end of every executing step: the directive is applied (R124) and the hint returned. The target of a jump is a natural
number, so nothing wraps before the check. -/
def complete (dir : Directive) (h : Hint) (s : State) : Result :=
  match dir with
  | .next => .next { s with pc := s.pc + 2, hint := h }
  | .skip => .next { s with pc := s.pc + 4, hint := h }
  | .stay => .next { s with hint := h }
  | .jump a =>
    if progBase ≤ a ∧ a < memSize then .next { s with pc := BitVec.ofNat 16 a, hint := h }
    else .fault (.jumpOutOfBounds a)

/-- A conditional skip (R143 to R146, R233, R234). -/
def skipIf (c : Bool) : Directive := if c then .skip else .next

/-! ### Faults

`raise E(info)` (60_exceptions.md R251) is the answer `.fault E`: it ends the step, applies no directive and gives no next
state. What the machine holds afterwards is `recordFault`. There is no trap entry and no return from one (R253, R254). -/

/-- The codes E1 to E8 (R250, decision D22): labels only. -/
def Fault.code : Fault → Nat
  | .decodeError _ => 1
  | .fetchError _ => 2
  | .jumpOutOfBounds _ => 3
  | .stackOverflow => 4
  | .stackUnderflow => 5
  | .fontIndexOutOfRange _ => 6
  | .memoryBounds _ => 7
  | .keyIndexOutOfRange _ => 8

/-- The latch a free value describes. -/
def edgeOf (e : Fin 16 × Bool × Bool) : Edge := ⟨e.1, e.2.1, e.2.2⟩

/-- The hook a free value describes. -/
def hookOf : Option Reg → Hook
  | some x => .waitKey x
  | none => .none

/-- The halted machine: `fault <- E(info)` (R251), `DT` and `ST` as they were, and every other part of the spec's state
unspecified (R252, R126): a free value (log 8). -/
def State.recordFault (s : State) (f : Fault) : State :=
  { s with
    fault := some f
    v := Vector.ofFn (afterFaultV s.draws)
    i := afterFaultI s.draws
    pc := afterFaultPc s.draws
    stack := Vector.ofFn (afterFaultStack s.draws)
    sp := afterFaultSp s.draws
    mem := Memory.ofBytes s.image (afterFaultMem s.draws)
    disp := Vector.ofFn fun r => Vector.ofFn (afterFaultDisp s.draws r)
    keys := Vector.ofFn (afterFaultKeys s.draws)
    lastEdge := (afterFaultEdge s.draws).map edgeOf
    hook := hookOf (afterFaultHook s.draws)
    draws := s.draws + 1 }

/-! ### Fetch, and placing an instruction where it is fetched -/

/-- Fetch (40_executor.md R122; 20_memory.md R64): the big-endian word at `PC`, `PC+1`, or `FetchError(PC)`. -/
def fetch (s : State) : Except Fault Word :=
  if memSize ≤ s.pc.toNat + 1 then .error (.fetchError s.pc)
  else .ok (bigEndian (s.byteAt s.pc.toNat) (s.byteAt (s.pc.toNat + 1)))

/-- `s` with a word stored at its `PC` and ready to fetch it: no recorded fault, no pending hook, the executor's turn; a `PC`
from which nothing can be fetched is moved to the entry point (log 10). -/
def placeWord (s : State) (w : Word) : State :=
  let pc : Word := if memSize ≤ s.pc.toNat + 1 then 0x200 else s.pc
  { s with
    pc := pc
    fault := none
    hook := .none
    schedule := []
    mem := Memory.writeBytes s.image s.mem pc.toNat [highByte w, lowByte w] }

end Sys2Proof.Machine
end

