-- ==== Sys2Proof/Machine/Operands.lean ====
section
/-! DEFINITION. The operand forms of 30_encoding.md R92: reading and writing the general registers, one by one and in bulk, the
16-bit extensions of literals, and the one-digit operands of `LD F`, `SKP` and `SKNP`. -/

namespace Sys2Proof.Machine

/-- `V[x]` (10_state.md R21). -/
def State.getV (s : State) (x : Reg) : Byte := s.v[x.val]'x.isLt

/-- `V[x] <- b`. -/
def State.setV (s : State) (x : Reg) (b : Byte) : State := { s with v := s.v.set x.val b x.isLt }

/-- `VF`, the flag register `V[15]` (R21, R23). -/
def vf : Reg := 15

/-- `nnn` used as an address (30_encoding.md R92). -/
def addressOf (nnn : Nnn) : Nat := nnn.toNat

/-- `zext_16` of a 12-bit literal (43_index_memory.md R190). -/
def zext16 (nnn : Nnn) : Word := nnn.setWidth 16

/-- The digit a register's value names, 0..15; none when the value is above `0x0F` (R192, R233, R234). -/
def digitOf (b : Byte) : Option (Fin 16) := if h : b.toNat < 16 then some ⟨b.toNat, h⟩ else none

/-- The bytes `V[0], ..., V[x]`, inclusive of `x` (43_index_memory.md R194). -/
def State.regBytes (s : State) (x : Reg) : List Byte := s.v.toList.take (x.val + 1)

/-- `V[j] <- mem[a + j]` for `j` in `0..x`; registers above `x` unchanged (R195). -/
def State.loadRegs (s : State) (a : Nat) (x : Reg) : State :=
  { s with v := Vector.ofFn fun j : Fin 16 => if j.val ≤ x.val then s.byteAt (a + j.val) else s.getV j }

/-- The decimal digits of a byte, hundreds first (R193). -/
def bcdBytes (h : Byte) : List Byte :=
  [BitVec.ofNat 8 (h.toNat / 100), BitVec.ofNat 8 (h.toNat / 10 % 10), BitVec.ofNat 8 (h.toNat % 10)]

/-- Key `k` (10_state.md R32). -/
def State.key (s : State) (k : Fin 16) : Bool := s.keys[k.val]'k.isLt

end Sys2Proof.Machine
end

