-- ==== Sys2Proof/Machine/Flags.lean ====
section
/-! DEFINITION. The results and flags of the five flag-setting ALU instructions (42_alu.md R160, R167 to R171, R173) and the order
in which they are written: the result first, the flag to `VF` last. -/

namespace Sys2Proof.Machine

/-- A condition as the byte a flag holds. -/
def flagByte (c : Bool) : Byte := if c then 1 else 0

/-- `ADD`: the low 8 bits of the 9-bit sum, and its bit 8, the carry (R167). -/
def addCarry (a b : Byte) : Byte × Byte :=
  let s : BitVec 9 := a.setWidth 9 + b.setWidth 9
  (s.setWidth 8, flagByte (s.getLsbD 8))

/-- `a - b` modulo 256, and NOT borrow (R168, R170; 90_conflicts.md C3). -/
def subNotBorrow (a b : Byte) : Byte × Byte := (a - b, flagByte (decide (b.toNat ≤ a.toNat)))

/-- `SHR`: the value shifted right by one, and the bit shifted out (R169). -/
def shiftRight (a : Byte) : Byte × Byte := (a >>> 1, a &&& 1)

/-- `SHL`: the value shifted left by one modulo 256, and the bit shifted out (R171). -/
def shiftLeft (a : Byte) : Byte × Byte := (a <<< 1, a >>> 7)

/-- `V[x] <- result`, then `VF <- flag`: with `x = F` the flag is what remains (R160). -/
def State.setResultThenFlag (s : State) (x : Reg) (rf : Byte × Byte) : State := (s.setV x rf.1).setV vf rf.2

end Sys2Proof.Machine
end

