-- ==== Sys2Proof/Machine/Alu.lean ====
section
/-! DEFINITION. Register loads, ALU and random (42_alu.md R160 to R173). None of these raises a fault, jumps or gives a hint. -/

namespace Sys2Proof.Machine

/-- `LD Vx, kk` (R161). -/
def execLdVxKk (x : Reg) (kk : Byte) (s : State) : Result := complete .next .none (s.setV x kk)

/-- `ADD Vx, kk` (R162): modulo 256, no flag. -/
def execAddVxKk (x : Reg) (kk : Byte) (s : State) : Result := complete .next .none (s.setV x (s.getV x + kk))

/-- `LD Vx, Vy` (R163). -/
def execLdVxVy (x y : Reg) (s : State) : Result := complete .next .none (s.setV x (s.getV y))

/-- `OR Vx, Vy` (R164). -/
def execOr (x y : Reg) (s : State) : Result := complete .next .none (s.setV x (s.getV x ||| s.getV y))

/-- `AND Vx, Vy` (R165). -/
def execAnd (x y : Reg) (s : State) : Result := complete .next .none (s.setV x (s.getV x &&& s.getV y))

/-- `XOR Vx, Vy` (R166). -/
def execXor (x y : Reg) (s : State) : Result := complete .next .none (s.setV x (s.getV x ^^^ s.getV y))

/-- `ADD Vx, Vy` (R167). -/
def execAddVxVy (x y : Reg) (s : State) : Result :=
  complete .next .none (s.setResultThenFlag x (addCarry (s.getV x) (s.getV y)))

/-- `SUB Vx, Vy` (R168). -/
def execSub (x y : Reg) (s : State) : Result :=
  complete .next .none (s.setResultThenFlag x (subNotBorrow (s.getV x) (s.getV y)))

/-- `SHR Vx` (R169): the `y` field is ignored. -/
def execShr (x _y : Reg) (s : State) : Result :=
  complete .next .none (s.setResultThenFlag x (shiftRight (s.getV x)))

/-- `SUBN Vx, Vy` (R170). -/
def execSubn (x y : Reg) (s : State) : Result :=
  complete .next .none (s.setResultThenFlag x (subNotBorrow (s.getV y) (s.getV x)))

/-- `SHL Vx` (R171): the `y` field is ignored. -/
def execShl (x _y : Reg) (s : State) : Result :=
  complete .next .none (s.setResultThenFlag x (shiftLeft (s.getV x)))

/-- `RND Vx, kk` (R172): exactly one byte is drawn, whatever `kk` is. The byte is a free value (log 5). -/
def execRnd (x : Reg) (kk : Byte) (s : State) : Result :=
  complete .next .none { s.setV x (Config.randomByte s.draws &&& kk) with draws := s.draws + 1 }

end Sys2Proof.Machine
end

