-- ==== Sys2Proof/Machine/ControlFlow.lean ====
section
/-! DEFINITION. Jumps, calls, returns and skips (41_control_flow.md R140 to R147). -/

namespace Sys2Proof.Machine

/-- `RET` (R140). -/
def execRet (s : State) : Result :=
  match s.pop with
  | none => .fault .stackUnderflow
  | some (a, t) => complete (.jump a.toNat) .none t

/-- `JP nnn` (R141). -/
def execJp (nnn : Nnn) (s : State) : Result := complete (.jump (addressOf nnn)) .none s

/-- `CALL nnn` (R142): the push comes before the target is checked. -/
def execCall (nnn : Nnn) (s : State) : Result :=
  match s.push (s.pc + 2) with
  | none => .fault .stackOverflow
  | some t => complete (.jump (addressOf nnn)) .none t

/-- `SE Vx, kk` (R143). -/
def execSeVxKk (x : Reg) (kk : Byte) (s : State) : Result := complete (skipIf (s.getV x = kk)) .none s

/-- `SNE Vx, kk` (R144). -/
def execSneVxKk (x : Reg) (kk : Byte) (s : State) : Result := complete (skipIf (s.getV x ≠ kk)) .none s

/-- `SE Vx, Vy` (R145). -/
def execSeVxVy (x y : Reg) (s : State) : Result := complete (skipIf (s.getV x = s.getV y)) .none s

/-- `SNE Vx, Vy` (R146). -/
def execSneVxVy (x y : Reg) (s : State) : Result := complete (skipIf (s.getV x ≠ s.getV y)) .none s

/-- `JP V0, nnn` (R147): a natural-number sum, no wrap. -/
def execJpV0Nnn (nnn : Nnn) (s : State) : Result :=
  complete (.jump ((s.getV 0).toNat + addressOf nnn)) .none s

end Sys2Proof.Machine
end

