-- ==== Sys2Proof/Machine/Draw.lean ====
section
/-! DEFINITION. The display instructions (44_display.md R210, R211). -/

namespace Sys2Proof.Machine

open Config

/-- `CLS` (R210). -/
def execCls (s : State) : Result := complete .next .clear { s with disp := Display.clear }

/-- The display and the collision bit that `DRW Vx, Vy, n` leaves: the start position wraps, the sprite is clipped, and the
coordinates are read before `VF` is cleared (R211, decision D23). -/
def State.blit (s : State) (x y : Reg) (n : Nat) : Display × Bool :=
  xorSprite ((s.getV x).toNat % dispWidth) ((s.getV y).toNat % dispHeight)
    (Memory.readBytes s.image s.mem s.i.toNat n) s.disp

/-- `DRW Vx, Vy, n` (R211): all `n` bytes are checked and read, clipped rows included; `VF` ends as the collision bit. -/
def execDrw (x y : Reg) (n : Nat) (s : State) : Result :=
  checkAccess s.i.toNat n
    (complete .next .draw { s.setV vf (flagByte (s.blit x y n).2) with disp := (s.blit x y n).1 })

end Sys2Proof.Machine
end

