-- ==== Sys2Proof/Machine/IndexMemory.lean ====
section
/-! DEFINITION. The index register, font lookup, BCD and bulk load and store (43_index_memory.md R190 to R195). -/

namespace Sys2Proof.Machine

/-- `LD I, nnn` (R190). -/
def execLdINnn (nnn : Nnn) (s : State) : Result := complete .next .none { s with i := zext16 nnn }

/-- `ADD I, Vx` (R191): modulo 65536, no flag. -/
def execAddIVx (x : Reg) (s : State) : Result :=
  complete .next .none { s with i := s.i + (s.getV x).setWidth 16 }

/-- `LD F, Vx` (R192): a value above `0x0F` is a fault, not masked (90_conflicts.md C5). -/
def execLdFVx (x : Reg) (s : State) : Result :=
  match digitOf (s.getV x) with
  | none => .fault (.fontIndexOutOfRange (s.getV x))
  | some d => complete .next .none { s with i := BitVec.ofNat 16 (s.params.fontBase.val + 5 * d.val) }

/-- `LD B, Vx` (R193). -/
def execLdBVx (x : Reg) (s : State) : Result :=
  checkAccess s.i.toNat 3 (complete .next .none (s.storeBytes s.i.toNat (bcdBytes (s.getV x))))

/-- `LD [I], Vx` (R194): `I` is not modified. -/
def execLdMemVx (x : Reg) (s : State) : Result :=
  checkAccess s.i.toNat (x.val + 1) (complete .next .none (s.storeBytes s.i.toNat (s.regBytes x)))

/-- `LD Vx, [I]` (R195): `I` is not modified. -/
def execLdVxMem (x : Reg) (s : State) : Result :=
  checkAccess s.i.toNat (x.val + 1) (complete .next .none (s.loadRegs s.i.toNat x))

end Sys2Proof.Machine
end

