-- ==== Sys2Proof/Machine/TimersKeypad.lean ====
section
/-! DEFINITION. The timer and keypad instructions and the post-resume hook (45_timers_keypad.md R230 to R242). -/

namespace Sys2Proof.Machine

/-- `LD Vx, DT` (R230). -/
def execLdVxDt (x : Reg) (s : State) : Result := complete .next .none (s.setV x s.dt)

/-- `LD DT, Vx` (R231). -/
def execLdDtVx (x : Reg) (s : State) : Result := complete .next .none { s with dt := s.getV x }

/-- `LD ST, Vx` (R232): the hint is `Sound` when the new value is above 0 (decision D20). -/
def execLdStVx (x : Reg) (s : State) : Result :=
  complete .next (if s.getV x = 0 then .none else .sound) { s with st := s.getV x }

/-- `SKP Vx` (R233). -/
def execSkp (x : Reg) (s : State) : Result :=
  match digitOf (s.getV x) with
  | none => .fault (.keyIndexOutOfRange (s.getV x))
  | some k => complete (skipIf (s.key k)) .none s

/-- `SKNP Vx` (R234). -/
def execSknp (x : Reg) (s : State) : Result :=
  match digitOf (s.getV x) with
  | none => .fault (.keyIndexOutOfRange (s.getV x))
  | some k => complete (skipIf (!s.key k)) .none s

/-- `LD Vx, K` (R240): arms the hook; `PC` keeps pointing at the `Fx0A`. -/
def execLdVxK (x : Reg) (s : State) : Result :=
  complete .stay .wait
    { s with hook := .waitKey x, lastEdge := if s.params.acceptsStaleEdge then s.lastEdge else none }

/-- `HookReady()` (R241): the key of the press the latch holds, if it holds one (decision D18). -/
def latchedPress (s : State) : Option (Fin 16) :=
  match s.lastEdge with
  | some e => if e.current then some e.index else none
  | none => none

/-- `CompleteHook(x)` (R241): nothing else happens in the step, and `last_edge` is left as it is. -/
def completeHook (x : Reg) (k : Fin 16) (s : State) : State :=
  { s.setV x (BitVec.ofNat 8 k.val) with pc := s.pc + 2, hook := .none, hint := .none }

/-- A step with a pending hook (R241, R242): it completes, or it returns `Wait` and changes no state of the spec's. -/
def serviceHook (x : Reg) (s : State) : State :=
  match latchedPress s with
  | some k => completeHook x k s
  | none => { s with hint := .wait }

end Sys2Proof.Machine
end

