-- ==== Sys2Proof/Machine/Environment.lean ====
section
/-! DEFINITION. The agents beside the executor: the two tickers (60_exceptions.md R270 to R274) and the host's operations
(R275 to R282), and construction, the only reset (70_reset_and_hazards.md R300). -/

namespace Sys2Proof.Machine

open Config

/-! ### Timers -/

/-- A tick of a counter (R270). -/
def tickDown (t : Byte) : Byte := if t = 0 then 0 else t - 1

/-- A tick of the delay timer. -/
def tickDT (s : State) : State := { s with dt := tickDown s.dt }

/-- A tick of the sound timer. -/
def tickST (s : State) : State := { s with st := tickDown s.st }

/-- The audio output (R271, R281): on while `ST > 0`. -/
def soundOn (s : State) : Bool := s.st ≠ 0

/-! ### Keypad and display -/

/-- `set_key(i, v)` on a key number in range (R275): every key is released first. -/
def updateKey (k : Fin 16) (v : Bool) (s : State) : State :=
  { s with
    keys := (Vector.replicate 16 false).set k.val v k.isLt
    lastEdge := some ⟨k, s.key k, v⟩ }

/-- `set_key(i, v)`; an index above 15 is refused by the interface and changes nothing (R275, decision D24). -/
def setKey (i : Nat) (v : Bool) (s : State) : State := if h : i < 16 then updateKey ⟨i, h⟩ v s else s

/-- `toggle_key(i)` (R276). -/
def toggleKey (i : Nat) (s : State) : State := if h : i < 16 then updateKey ⟨i, h⟩ (!s.key ⟨i, h⟩) s else s

/-- `set_all(bits)` (R277). -/
def setAll (bits : Vector Bool 16) (s : State) : State := { s with keys := bits, lastEdge := none }

/-- `get_display()` (R280). -/
def getDisplay (s : State) : Display := s.disp

/-! ### Construction -/

/-- A ROM that is too long is refused and no machine exists (R65, R300, decision D28). -/
structure LoadError where
  len : Nat
  deriving DecidableEq, Repr

/-- Construction from the ROM's bytes (R300), for any value of the model arguments: the reset state with the ROM copied to
`0x200`. The pad byte of an odd-length ROM is the zero fill. -/
def construct (params : Params) (initV : Vector Byte 16) (initI : Word) (schedule : List Event) (rom : List Byte) :
    Except LoadError State :=
  if romMax < rom.length then .error ⟨rom.length⟩
  else .ok ((State.resetWith params initV initI schedule).storeBytes progBase rom)

end Sys2Proof.Machine
end

