-- ==== Sys2Proof/Machine/Executor.lean ====
section
/-! DEFINITION. The executor's `step()` (40_executor.md R120, R121), what a call of it hands the host, and one event of the whole
machine (20_memory.md R71). -/

namespace Sys2Proof.Machine

/-- Decode the fetched word and execute it (R121). -/
def decodeAndExec (w : Word) (s : State) : Result :=
  match decodeWord w with
  | .error _ => .fault (.decodeError w)
  | .ok i => exec i s

/-- Fetch, decode and execute exactly one instruction (R121). -/
def runInstruction (s : State) : Result :=
  match fetch s with
  | .error f => .fault f
  | .ok w => decodeAndExec w s

/-- `step()` in the order of R121: a recorded fault, then a pending hook, then an instruction. -/
def executorStep (s : State) : Result :=
  match s.fault with
  | some f => .fault f
  | none =>
    match s.hook with
    | .waitKey x => .next (serviceHook x s)
    | .none => runInstruction s

/-- What the machine is once the executor's step has answered `fault f` in `s`: the fault is recorded (60_exceptions.md R251); a
machine already halted is left as it is (R252). -/
def State.afterFault (s : State) (f : Fault) : State := if s.fault.isSome then s else s.recordFault f

/-- A call of `step()` as one event "applied whole to the state left by the previous event" (20_memory.md R71): a fault is no end
of the execution, the halted machine is the state it leaves. -/
def stepEvent (s : State) : Result :=
  match executorStep s with
  | .next t => .next t
  | .fault f => .next (s.afterFault f)
  | .refused r => .refused r

/-- One atomic event. The agents beside the executor always go on, after a fault as well (60_exceptions.md R252, R274). -/
def applyEvent (e : Event) (s : State) : Result :=
  match e with
  | .step => stepEvent s
  | .tickDT => .next (tickDT s)
  | .tickST => .next (tickST s)
  | .setKey i v => .next (setKey i v s)
  | .toggleKey i => .next (toggleKey i s)
  | .setAll bits => .next (setAll bits s)

/-- The next event of the machine: the head of the schedule, applied whole; or, when nothing is scheduled, the executor's move with
the executor's own answer, a raised fault included (log 4). -/
def nextEvent (s : State) : Result :=
  match s.schedule with
  | [] => executorStep s
  | e :: rest => applyEvent e { s with schedule := rest }

/-- What a call of `step()` returns to the host (R120). -/
inductive Reply where
  | hint (h : Hint)
  | fault (f : Fault)
  /-- The model has no meaning for the instruction; never given, since every instruction has one. -/
  | refused (r : Refusal)
  deriving DecidableEq, Repr

/-- A call of `step()` as the host sees it: the machine afterwards and the reply. -/
def stepCall (s : State) : State × Reply :=
  match executorStep s with
  | .next t => (t, .hint t.hint)
  | .fault f => (s.afterFault f, .fault f)
  | .refused r => (s, .refused r)

end Sys2Proof.Machine
end

