-- ==== Sys2Proof/Machine/Step.lean ====
section
/-! DEFINITION. The machine's one step, and how a program is put where it fetches. -/

namespace Sys2Proof.Machine

/-- One step of the machine: its next atomic event (20_memory.md R71). -/
def step : State → Host.Outcome State Fault Refusal := nextEvent

/-- `s` with an instruction's word, numbered as spec/opcode_table.json numbers it, stored where `step` fetches next, so that the
very next step runs it (log 10). -/
def State.withFetchWord (s : State) (nbits w : Nat) : State := placeWord s (BitVec.ofNat 16 (w % 2 ^ nbits))

end Sys2Proof.Machine
end

