-- ==== Sys2Proof/Machine/Runs.lean ====
section
/-! DEFINITION. Executions (20_memory.md R71, 60_exceptions.md R272, 70_reset_and_hazards.md R321): finite and endless sequences of
atomic events in any order, and which endless ones are weakly fair. An endless order is an argument of a statement, never a part of
the state. -/

namespace Sys2Proof.Machine

/-- The outcome with `f` applied to the next state, if there is one. -/
def mapNext (f : State → State) : Result → Result
  | .next t => .next (f t)
  | .fault e => .fault e
  | .refused r => .refused r

/-- Go on from the next state, if there is one. -/
def andThen (r : Result) (k : State → Result) : Result :=
  match r with
  | .next t => k t
  | .fault f => .fault f
  | .refused e => .refused e

/-- The events of a list, one after the other, each applied whole to the state left by the previous one (R71). -/
def runEvents : List Event → State → Result
  | [], s => .next s
  | e :: es, s => andThen (applyEvent e s) (runEvents es)

/-- `k` steps of the machine, one after the other. -/
def runSteps : Nat → State → Result
  | 0, s => .next s
  | k + 1, s => andThen (nextEvent s) (runSteps k)

/-- The endless execution that meets event `es k` in state `ss k`, for every `k`: "one sequence of atomic events" (R71). Every
order of steps, ticks and host operations is admitted, with no ratio between them (R272, R321). -/
def IsExecution (es : Nat → Event) (ss : Nat → State) : Prop := ∀ k, applyEvent (es k) (ss k) = .next (ss (k + 1))

/-- Weak fairness for one ticker: a timer that stays above 0 is eventually ticked (R272, decision D25). -/
def TickerFair (timer : State → Byte) (tick : Event) (es : Nat → Event) (ss : Nat → State) : Prop :=
  ∀ k, (∀ j, k ≤ j → timer (ss j) ≠ 0) → ∃ j, k ≤ j ∧ es j = tick

/-- The executor's fairness: a step is eventually taken, again and again, while the host calls `step()` (decision D25). -/
def ExecutorFair (es : Nat → Event) : Prop := ∀ k, ∃ j, k ≤ j ∧ es j = .step

/-- A weakly fair execution: fair to both tickers and to the executor (R272, R321, decision D25; log 13). -/
structure WeaklyFair (es : Nat → Event) (ss : Nat → State) : Prop where
  execution : IsExecution es ss
  delay : TickerFair State.dt .tickDT es ss
  sound : TickerFair State.st .tickST es ss
  executor : ExecutorFair es

end Sys2Proof.Machine
end

