-- ==== Sys2Proof/Safety.lean ====
section
/-! DEFINITION. The terms the statements use: which parts of the state an instruction leaves alone, when the executor is ready to run an
instruction, and the invariant of every running machine. -/

namespace Sys2Proof.Machine

/-! ### Frames -/

/-- A part of the spec's state that an instruction may write; `PC` and the hint are said apart in every statement. -/
inductive Part where
  | v (x : Reg)
  | i
  | stack
  | dt
  | st
  /-- The `n` bytes of memory from address `a`. -/
  | mem (a n : Nat)
  | disp
  | keys
  | lastEdge
  | hook
  | draws
  deriving DecidableEq, Repr

/-- Everything but the listed parts (and `PC` and the hint) is in `t` as it was in `s`: every register, `I`, the stack and its
depth, both timers, every byte of memory outside the listed ones, the display, the keypad, the hook, the number of draws; and
always the recorded fault, the model arguments and the schedule. -/
def UnchangedExcept (ps : List Part) (s t : State) : Prop :=
  (∀ x, Part.v x ∉ ps → t.getV x = s.getV x)
  ∧ (Part.i ∉ ps → t.i = s.i)
  ∧ (Part.stack ∉ ps → t.stack = s.stack ∧ t.sp = s.sp)
  ∧ (Part.dt ∉ ps → t.dt = s.dt)
  ∧ (Part.st ∉ ps → t.st = s.st)
  ∧ (∀ a, (∀ lo n, Part.mem lo n ∈ ps → a < lo ∨ lo + n ≤ a) → t.byteAt a = s.byteAt a)
  ∧ (Part.disp ∉ ps → t.disp = s.disp)
  ∧ (Part.keys ∉ ps → t.keys = s.keys)
  ∧ (Part.lastEdge ∉ ps → t.lastEdge = s.lastEdge)
  ∧ (Part.hook ∉ ps → t.hook = s.hook)
  ∧ (Part.draws ∉ ps → t.draws = s.draws)
  ∧ t.fault = s.fault ∧ t.params = s.params ∧ t.schedule = s.schedule

/-- The directive `Next` with a hint (40_executor.md R123, R124). -/
def Advances (h : Hint) (s t : State) : Prop := t.pc = s.pc + 2 ∧ t.hint = h

/-- The words that `mask` and `pattern` select decode to the instruction that `build` reads from them (an opcode-table row). -/
def Encoding (mask pattern : Word) (build : Word → Instr) : Prop :=
  ∀ w : Word, w &&& mask = pattern → decodeWord w = .ok (build w)

/-- A step that skips the next instruction when `c` holds and goes to it otherwise (41_control_flow.md R143): nothing else
changes, and a skip from `0xFFC` succeeds and faults at the next fetch. -/
def SkipsWhen (c : Prop) (i : Instr) (s : State) : Prop :=
  (c → ∃ t, exec i s = .next t ∧ t.pc = s.pc + 4 ∧ t.hint = .none ∧ UnchangedExcept [] s t
    ∧ (s.pc = 0xFFC → s.fault = none → s.hook = .none → executorStep t = .fault (.fetchError 0x1000)))
  ∧ (¬c → ∃ t, exec i s = .next t ∧ Advances .none s t ∧ UnchangedExcept [] s t)

/-- A jump to `a` (40_executor.md R124): taken when `0x200 ≤ a < 0x1000`, and then only `PC` and the hint change besides the
listed parts; a fault that names `a` otherwise. -/
def JumpsTo (a : Nat) (ps : List Part) (i : Instr) (s : State) : Prop :=
  (0x200 ≤ a ∧ a < 0x1000 → ∃ t, exec i s = .next t ∧ t.pc.toNat = a ∧ t.hint = .none ∧ UnchangedExcept ps s t)
  ∧ (¬(0x200 ≤ a ∧ a < 0x1000) → exec i s = .fault (.jumpOutOfBounds a))

/-! ### The display -/

/-- Whether the sprite of `bytes` at column `sx`, row `sy` has a 1-bit for the cell in column `c`, row `r`: byte `r - sy`, its
bit 7 the leftmost pixel (44_display.md R213). -/
def spriteBit (sx sy : Nat) (bytes : List Byte) (c r : Nat) : Bool :=
  decide (sx ≤ c ∧ c < sx + 8 ∧ sy ≤ r ∧ r < sy + bytes.length) && (bytes.getD (r - sy) 0).getLsbD (7 - (c - sx))

/-- The bytes at `I, ..., I+n-1`. -/
def State.spriteBytes (s : State) (n : Nat) : List Byte := (List.range n).map fun r => s.byteAt (s.i.toNat + r)

/-! ### Running -/

/-- The executor may run an instruction: no recorded fault and no pending hook (40_executor.md R121). -/
def Running (s : State) : Prop := s.fault = none ∧ s.hook = .none

/-- The invariant of the machine: memory in its canonical form and, while no fault is recorded, `PC` in the range of
10_state.md R25, a pending hook only where an instruction was fetched, and every held stack entry an address that a `CALL` can
push (41_control_flow.md R140, R142). -/
structure State.Inv (s : State) : Prop where
  mem_wf : s.MemWf
  pc_range : s.fault = none → 0x200 ≤ s.pc.toNat ∧ s.pc.toNat ≤ 0x1002
  hook_pc : s.fault = none → s.hook ≠ .none → s.pc.toNat ≤ 0xFFE
  stack_range : s.fault = none → ∀ j : Fin 16, j.val < s.sp.val →
    0x202 ≤ (s.stack[j.val]'j.isLt).toNat ∧ (s.stack[j.val]'j.isLt).toNat ≤ 0x1000

/-- `k` calls of the executor's `step()` in a row, with no event between them. -/
def executorSteps : Nat → State → Result
  | 0, s => .next s
  | k + 1, s => andThen (executorStep s) (executorSteps k)

/-- The registers that the "writes" column of 10_state.md R22 gives an instruction (`Vx` and, where the table says so, `VF`; for
`Fx0A` it is written when the hook completes, not by the instruction itself). -/
def regsWritten : Instr → List Reg
  | .ldVxKk x _ | .addVxKk x _ | .ldVxVy x _ | .or x _ | .and x _ | .xor x _ | .rnd x _ | .ldVxDt x => [x]
  | .addVxVy x _ | .sub x _ | .subn x _ | .shr x _ | .shl x _ => [x, 15]
  | .drw _ _ _ => [15]
  | .ldVxMem x => (List.finRange 16).filter fun j => j.val ≤ x.val
  | .cls | .ret | .jp _ | .call _ | .seVxKk _ _ | .sneVxKk _ _ | .seVxVy _ _ | .sneVxVy _ _ | .ldINnn _ | .jpV0Nnn _
  | .skp _ | .sknp _ | .ldVxK _ | .ldDtVx _ | .ldStVx _ | .addIVx _ | .ldFVx _ | .ldBVx _ | .ldMemVx _ => []

/-- The faults that 60_exceptions.md R250 lets an instruction raise once it has been fetched and decoded. -/
def faultsOf : Instr → Fault → Prop
  | .jp _, .jumpOutOfBounds _ | .call _, .jumpOutOfBounds _ | .ret, .jumpOutOfBounds _ | .jpV0Nnn _, .jumpOutOfBounds _ => True
  | .call _, .stackOverflow | .ret, .stackUnderflow => True
  | .ldFVx _, .fontIndexOutOfRange _ => True
  | .drw _ _ _, .memoryBounds _ | .ldBVx _, .memoryBounds _ | .ldMemVx _, .memoryBounds _ | .ldVxMem _, .memoryBounds _ => True
  | .skp _, .keyIndexOutOfRange _ | .sknp _, .keyIndexOutOfRange _ => True
  | _, _ => False

/-- How many bytes from `I` a data access of an instruction touches (20_memory.md R67); none where it makes none. -/
def accessLength : Instr → Nat
  | .drw _ _ n => n
  | .ldBVx _ => 3
  | .ldMemVx x | .ldVxMem x => x.val + 1
  | _ => 0

/-- A safe run: none of `k` events from `s` raises a fault, scheduled steps included, or is refused. -/
def RunsSafely : Nat → State → Prop
  | 0, _ => True
  | k + 1, s => ∃ t, step s = .next t ∧ t.fault = none ∧ RunsSafely k t

end Sys2Proof.Machine
end

