-- ==== Sys2Proof/Certificates/Slice0/Obligations.lean ====
section
/-! DEFINITION. The statements for the provers, from the numbered rules of spec/. A per-instruction statement says the
instruction's encoding, that it completes and with what, what it leaves unchanged, and where it faults. -/

open Sys2Proof Sys2Proof.Machine

/-! ### Encoding -/

/-- Decoding the encoding of every well-formed instruction gives it back, as a word and as bytes (30_encoding.md R93, R94). -/
def Obligations.DecodeOfEncodeIsTheInstruction : Prop :=
  ∀ i : Instr, i.WellFormed →
    decodeWord (encode i) = .ok i ∧ ∀ rest, decode (encodeBytes i ++ rest) = .ok (i, rest)

/-- A word that decodes is the encoding of what it decodes to, which is well formed: no bit is dropped (R92, R94). -/
def Obligations.EncodeOfDecodedIsTheWord : Prop :=
  ∀ (w : Word) (i : Instr), decodeWord w = .ok i → i.WellFormed ∧ encode i = w

/-- The illegal words are exactly the listed ones; every other word decodes; an illegal word makes the step raise
`DecodeError(w)`; and the `y` field of `SHR` and `SHL` has no effect (30_encoding.md R96). -/
def Obligations.IllegalWordsAreExactlyTheListed : Prop :=
  (∀ w : Word, decodeWord w = .error (.illegal w) ↔
    (fieldT w = 0 ∧ w ≠ 0x00E0 ∧ w ≠ 0x00EE)
    ∨ ((fieldT w = 5 ∨ fieldT w = 9) ∧ fieldN w ≠ 0)
    ∨ (fieldT w = 8 ∧ fieldN w ∈ [0x8, 0x9, 0xA, 0xB, 0xC, 0xD, 0xF])
    ∨ (fieldT w = 0xE ∧ fieldKk w ∉ [0x9E, 0xA1])
    ∨ (fieldT w = 0xF ∧ fieldKk w ∉ [0x07, 0x0A, 0x15, 0x18, 0x1E, 0x29, 0x33, 0x55, 0x65]))
  ∧ (∀ w : Word, decodeWord w ≠ .error (.illegal w) → ∃ i, decodeWord w = .ok i)
  ∧ (∀ (s : State) (w : Word), Running s → fetch s = .ok w → decodeWord w = .error (.illegal w) →
      executorStep s = .fault (.decodeError w))
  ∧ (∀ (x y y' : Reg) (s : State), exec (.shr x y) s = exec (.shr x y') s ∧ exec (.shl x y) s = exec (.shl x y') s)

/-- The opcode map has 34 rows, no word belongs to two of them, and a word decodes exactly when it belongs to a row, to an
instruction of that row (30_encoding.md R94). -/
def Obligations.OpcodeMapSelectsTheDecodedInstruction : Prop :=
  opcodeTable.length = 34
  ∧ opcodeTable.Pairwise (fun r q => ∀ w, ¬(r.accepts w = true ∧ q.accepts w = true))
  ∧ (∀ w i, decodeWord w = .ok i → opcodeRow i ∈ opcodeTable ∧ (opcodeRow i).accepts w = true)
  ∧ (∀ w, ∀ r ∈ opcodeTable, r.accepts w = true → ∃ i, decodeWord w = .ok i ∧ opcodeRow i = r)

/-- Words written out from the patterns of R94, at least one a family, decode to the instructions they stand for. -/
def Obligations.SampleWordsDecode : Prop :=
  decodeWord 0x00E0 = .ok .cls ∧ decodeWord 0x1ABC = .ok (.jp 0xABC) ∧ decodeWord 0x3A5B = .ok (.seVxKk 0xA 0x5B)
  ∧ decodeWord 0x8AB5 = .ok (.sub 0xA 0xB) ∧ decodeWord 0xC0FF = .ok (.rnd 0 0xFF)
  ∧ decodeWord 0xF255 = .ok (.ldMemVx 2) ∧ decodeWord 0xD125 = .ok (.drw 1 2 5) ∧ decodeWord 0xF30A = .ok (.ldVxK 3)
  ∧ decodeWord 0x5121 = .error (.illegal 0x5121)

/-! ### The step -/

/-- A step runs the decoded instruction: when the two bytes at `PC` decode to `i`, the machine's step with nothing scheduled is
`exec i`; a scheduled `step()` leaves what `exec i` gives, or the halted machine when it raises a fault (log 8); a scheduled event of
another agent is the whole step (40_executor.md R121, 20_memory.md R71; `schedule` is the model's choice, log 4). -/
def Obligations.StepRunsTheDecodedInstruction : Prop :=
  (∀ (s : State) (i : Instr), Running s → s.pc.toNat + 1 < 0x1000 →
    decode [s.byteAt s.pc.toNat, s.byteAt (s.pc.toNat + 1)] = .ok (i, []) →
    (s.schedule = [] → step s = exec i s)
    ∧ ∀ rest, s.schedule = .step :: rest →
        (∀ t, exec i { s with schedule := rest } = .next t → step s = .next t)
        ∧ ∀ f, exec i { s with schedule := rest } = .fault f → step s = .next (State.recordFault { s with schedule := rest } f))
  ∧ (∀ (s : State) (rest : List Event) (k : Nat) (v : Bool) (bits : Vector Bool 16),
    (s.schedule = .tickDT :: rest → step s = .next (tickDT { s with schedule := rest }))
    ∧ (s.schedule = .tickST :: rest → step s = .next (tickST { s with schedule := rest }))
    ∧ (s.schedule = .setKey k v :: rest → step s = .next (setKey k v { s with schedule := rest }))
    ∧ (s.schedule = .toggleKey k :: rest → step s = .next (toggleKey k { s with schedule := rest }))
    ∧ (s.schedule = .setAll bits :: rest → step s = .next (setAll bits { s with schedule := rest })))

/-- Fetch reads the big-endian word at `PC`, even or odd, from memory as it stands, and changes nothing; from `PC = 0xFFF` on it
raises `FetchError(PC)` (40_executor.md R122). -/
def Obligations.FetchReadsTheWordAtPcOrFaults : Prop :=
  ∀ s : State, Running s →
    (0x1000 ≤ s.pc.toNat + 1 → executorStep s = .fault (.fetchError s.pc))
    ∧ (s.pc.toNat + 1 < 0x1000 → ∃ w : Word,
        w.toNat = (s.byteAt s.pc.toNat).toNat * 256 + (s.byteAt (s.pc.toNat + 1)).toNat
        ∧ executorStep s = decodeAndExec w s)

/-- A word placed where the machine fetches is the next instruction it runs; from outside the program enters the machine this
way (the model's choice, log 10). -/
def Obligations.PlacedWordIsTheNextInstruction : Prop :=
  ∀ (s : State) (w : Nat) (i : Instr), s.MemWf → decodeTableWord 16 w = some i →
    step (s.withFetchWord 16 w) = exec i (s.withFetchWord 16 w)

/-- A halted machine returns its fault at every call and changes nothing, while ticks and the host's key updates, `set_key`,
`toggle_key` and `set_all`, go on as ever (60_exceptions.md R252, the spec's own decision D21). That the order of events is the field
`schedule`, its head performed, and that the executor answers when it is empty, is the model's choice (log 4). -/
def Obligations.HaltedMachineRepeatsItsFault : Prop :=
  ∀ (s : State) (f : Fault), s.fault = some f →
    stepCall s = (s, .fault f)
    ∧ (s.schedule = [] → step s = .fault f)
    ∧ (∀ rest, s.schedule = .step :: rest → step s = .next { s with schedule := rest })
    ∧ (∀ rest, s.schedule = .tickDT :: rest →
        ∃ t, step s = .next t ∧ t.dt.toNat = s.dt.toNat - 1 ∧ t.st = s.st ∧ t.fault = some f)
    ∧ (∀ rest, s.schedule = .tickST :: rest →
        ∃ t, step s = .next t ∧ t.st.toNat = s.st.toNat - 1 ∧ t.dt = s.dt ∧ t.fault = some f)
    ∧ (∀ rest k v, s.schedule = .setKey k v :: rest →
        step s = .next (setKey k v { s with schedule := rest }) ∧ (setKey k v { s with schedule := rest }).fault = some f)
    ∧ (∀ rest k, s.schedule = .toggleKey k :: rest →
        step s = .next (toggleKey k { s with schedule := rest }) ∧ (toggleKey k { s with schedule := rest }).fault = some f)
    ∧ (∀ rest bits, s.schedule = .setAll bits :: rest → ∃ t, step s = .next t ∧ t.keys = bits ∧ t.fault = some f)

/-- Raising a fault ends the step: the host gets the fault and the machine records it, `DT` and `ST` untouched; the next call
returns it again; and when the call is a scheduled event, what was scheduled after it is still to come (60_exceptions.md R251, R252;
where the fault is kept and the schedule are the model's choices, logs 8 and 4). -/
def Obligations.RaisedFaultIsRecordedAndReturned : Prop :=
  ∀ (s : State) (f : Fault), s.fault = none → executorStep s = .fault f →
    (stepCall s).2 = .fault f ∧ (stepCall s).1.fault = some f
    ∧ (stepCall s).1.dt = s.dt ∧ (stepCall s).1.st = s.st
    ∧ stepCall (stepCall s).1 = ((stepCall s).1, .fault f)
    ∧ ∀ rest, ∃ t, step { s with schedule := .step :: rest } = .next t ∧ t.fault = some f ∧ t.dt = s.dt ∧ t.st = s.st
      ∧ t.schedule = rest

/-- Hook completion: the step with a latched press does only `V[x] <- k`, `PC <- PC + 2`, `hook <- none` (45_timers_keypad.md
R241, the spec's own decisions D16 and D18). -/
def Obligations.HookCompletesOnALatchedPress : Prop :=
  ∀ (s : State) (x : Reg) (e : Edge), s.fault = none → s.hook = .waitKey x → s.lastEdge = some e → e.current = true →
    ∃ t, executorStep s = .next t ∧ (t.getV x).toNat = e.index.val ∧ Advances .none s t ∧ t.hook = .none
      ∧ UnchangedExcept [.v x, .hook] s t

/-- Waiting: without a latched press the step returns `Wait` and changes no state, again and again; ticks go on; a release and a
bulk update do not end the wait, a later press does (45_timers_keypad.md R242). -/
def Obligations.WaitingStepsChangeNothing : Prop :=
  ∀ (s : State) (x : Reg), s.fault = none → s.hook = .waitKey x →
    (s.lastEdge = none ∨ ∃ e, s.lastEdge = some e ∧ e.current = false) →
    (∀ m, executorSteps (m + 1) s = .next { s with hint := .wait })
    ∧ (tickDT s).hook = .waitKey x ∧ (tickDT s).dt.toNat = s.dt.toNat - 1
    ∧ (tickST s).hook = .waitKey x ∧ (tickST s).st.toNat = s.st.toNat - 1
    ∧ (∀ k, k < 16 → executorStep (setKey k false s) = .next { setKey k false s with hint := .wait })
    ∧ (∀ bits, executorStep (setAll bits s) = .next { setAll bits s with hint := .wait })
    ∧ (∀ k, k < 16 → ∃ t, executorStep (setKey k true s) = .next t ∧ (t.getV x).toNat = k ∧ t.hook = .none)

/-- An `Fx0A` waits through any number of steps with `PC` on itself and is ended by one press (45_timers_keypad.md R240 to R242),
for the default argument, under which an earlier press does not count (the spec's own decisions D16 to D18). -/
def Obligations.KeyWaitEndsWithOnePress : Prop :=
  ∀ (s : State) (x : Reg) (k m : Nat), s.fault = none → s.params.acceptsStaleEdge = false → k < 16 →
    ∃ t u r, exec (.ldVxK x) s = .next t ∧ executorSteps m t = .next u ∧ u.pc = s.pc ∧ u.hook = .waitKey x
      ∧ executorStep (setKey k true u) = .next r
      ∧ (r.getV x).toNat = k ∧ r.pc = s.pc + 2 ∧ r.hook = .none ∧ ∀ y, y ≠ x → r.getV y = s.getV y

/-- The four directives: `Next` adds 2, `Skip` adds 4, both unchecked; `Stay` leaves `PC`; `Jump(a)` is taken exactly inside
`[0x200, 0x1000)`, odd `a` too, and raises `JumpOutOfBounds(a)` otherwise (40_executor.md R124, the spec's own decision D10). -/
def Obligations.DirectiveMovesThePc : Prop :=
  ∀ (h : Hint) (s : State),
    complete .next h s = .next { s with pc := s.pc + 2, hint := h }
    ∧ complete .skip h s = .next { s with pc := s.pc + 4, hint := h }
    ∧ complete .stay h s = .next { s with hint := h }
    ∧ ∀ a : Nat, (0x200 ≤ a ∧ a < 0x1000 →
          ∃ t, complete (.jump a) h s = .next t ∧ t.pc.toNat = a ∧ t = { s with pc := t.pc, hint := h })
        ∧ (¬(0x200 ≤ a ∧ a < 0x1000) → complete (.jump a) h s = .fault (.jumpOutOfBounds a))

/-! ### Control flow -/

/-- `RET` (41_control_flow.md R140; the check of the popped address is the spec's own decision D11); in a state that keeps the
invariant the only popped address out of range is `0x1000`. -/
def Obligations.RetPopsAndJumps : Prop :=
  Encoding 0xFFFF 0x00EE (fun _ => .ret)
  ∧ ∀ s : State,
    (s.sp.val = 0 → exec .ret s = .fault .stackUnderflow)
    ∧ ∀ (h : 0 < s.sp.val), let a := s.stack[s.sp.val - 1]'(by omega)
      (0x200 ≤ a.toNat ∧ a.toNat < 0x1000 →
        ∃ t, exec .ret s = .next t ∧ t.pc = a ∧ t.hint = .none ∧ t.sp.val + 1 = s.sp.val ∧ t.stack = s.stack
          ∧ UnchangedExcept [.stack] s t)
      ∧ (¬(0x200 ≤ a.toNat ∧ a.toNat < 0x1000) → exec .ret s = .fault (.jumpOutOfBounds a.toNat))
      ∧ (s.Inv → s.fault = none → ¬(0x200 ≤ a.toNat ∧ a.toNat < 0x1000) → a = 0x1000)

/-- `JP nnn` (R141): odd targets too; a jump to `0xFFF` is taken and the next fetch faults. -/
def Obligations.JpJumps : Prop :=
  Encoding 0xF000 0x1000 (fun w => .jp (fieldNnn w))
  ∧ (∀ (nnn : Nnn) (s : State), JumpsTo nnn.toNat [] (.jp nnn) s)
  ∧ (∀ s : State, Running s → ∃ t, exec (.jp 0xFFF) s = .next t ∧ executorStep t = .fault (.fetchError 0xFFF))

/-- `CALL nnn` (R142): the address of the next instruction is pushed, then the target is checked; a full stack is reported first
(the spec's own decision D12). -/
def Obligations.CallPushesAndJumps : Prop :=
  Encoding 0xF000 0x2000 (fun w => .call (fieldNnn w))
  ∧ ∀ (nnn : Nnn) (s : State),
    (s.sp.val = 16 → exec (.call nnn) s = .fault .stackOverflow)
    ∧ (s.sp.val < 16 → nnn.toNat < 0x200 → exec (.call nnn) s = .fault (.jumpOutOfBounds nnn.toNat))
    ∧ (∀ h : s.sp.val < 16, 0x200 ≤ nnn.toNat →
        ∃ t, exec (.call nnn) s = .next t ∧ t.pc.toNat = nnn.toNat ∧ t.hint = .none ∧ t.sp.val = s.sp.val + 1
          ∧ t.stack[s.sp.val] = s.pc + 2
          ∧ (∀ j : Fin 16, j.val ≠ s.sp.val → t.stack[j.val]'j.isLt = s.stack[j.val]'j.isLt)
          ∧ UnchangedExcept [.stack] s t)

/-- `RET` undoes the `CALL` before it: from any state whose stack and depth are as the `CALL` left them it goes to the word after
the `CALL` and the depth is what it was (R140, R142). -/
def Obligations.RetUndoesCall : Prop :=
  ∀ (s t u : State) (nnn : Nnn), exec (.call nnn) s = .next t → u.stack = t.stack → u.sp = t.sp →
    0x200 ≤ (s.pc + 2).toNat → (s.pc + 2).toNat < 0x1000 →
    ∃ r, exec .ret u = .next r ∧ r.pc = s.pc + 2 ∧ r.sp = s.sp
      ∧ ∀ j : Fin 16, j.val < s.sp.val → r.stack[j.val]'j.isLt = s.stack[j.val]'j.isLt

/-- `SE Vx, kk`, `SNE Vx, kk`, `SE Vx, Vy` and `SNE Vx, Vy` (R143 to R146). -/
def Obligations.SkipOnComparison : Prop :=
  Encoding 0xF000 0x3000 (fun w => .seVxKk (fieldX w) (fieldKk w))
  ∧ Encoding 0xF000 0x4000 (fun w => .sneVxKk (fieldX w) (fieldKk w))
  ∧ Encoding 0xF00F 0x5000 (fun w => .seVxVy (fieldX w) (fieldY w))
  ∧ Encoding 0xF00F 0x9000 (fun w => .sneVxVy (fieldX w) (fieldY w))
  ∧ (∀ (x : Reg) (kk : Byte) (s : State),
      SkipsWhen (s.getV x = kk) (.seVxKk x kk) s ∧ SkipsWhen (s.getV x ≠ kk) (.sneVxKk x kk) s)
  ∧ ∀ (x y : Reg) (s : State),
      SkipsWhen (s.getV x = s.getV y) (.seVxVy x y) s ∧ SkipsWhen (s.getV x ≠ s.getV y) (.sneVxVy x y) s

/-- `JP V0, nnn` (R147): always `V0`, and no wrap (the spec's own decision D31). -/
def Obligations.JpV0JumpsToTheSum : Prop :=
  Encoding 0xF000 0xB000 (fun w => .jpV0Nnn (fieldNnn w))
  ∧ ∀ (nnn : Nnn) (s : State), JumpsTo ((s.getV 0).toNat + nnn.toNat) [] (.jpV0Nnn nnn) s

/-! ### Loads and ALU -/

/-- `LD Vx, kk` (42_alu.md R161). -/
def Obligations.LdByteWritesTheLiteral : Prop :=
  Encoding 0xF000 0x6000 (fun w => .ldVxKk (fieldX w) (fieldKk w))
  ∧ ∀ (x : Reg) (kk : Byte) (s : State),
    ∃ t, exec (.ldVxKk x kk) s = .next t ∧ t.getV x = kk ∧ Advances .none s t ∧ UnchangedExcept [.v x] s t

/-- `ADD Vx, kk` (R162): modulo 256, and `VF` only as a destination. -/
def Obligations.AddByteWrapsWithoutFlag : Prop :=
  Encoding 0xF000 0x7000 (fun w => .addVxKk (fieldX w) (fieldKk w))
  ∧ ∀ (x : Reg) (kk : Byte) (s : State),
    ∃ t, exec (.addVxKk x kk) s = .next t ∧ (t.getV x).toNat = ((s.getV x).toNat + kk.toNat) % 256
      ∧ Advances .none s t ∧ UnchangedExcept [.v x] s t

/-- `LD Vx, Vy` (R163). -/
def Obligations.LdRegisterCopies : Prop :=
  Encoding 0xF00F 0x8000 (fun w => .ldVxVy (fieldX w) (fieldY w))
  ∧ ∀ (x y : Reg) (s : State),
    ∃ t, exec (.ldVxVy x y) s = .next t ∧ t.getV x = s.getV y ∧ Advances .none s t ∧ UnchangedExcept [.v x] s t

/-- `OR`, `AND`, `XOR` (R164 to R166): `VF` only as a destination (the spec's own decision D14). Said bit by bit. -/
def Obligations.BitwiseCombinesRegisters : Prop :=
  Encoding 0xF00F 0x8001 (fun w => .or (fieldX w) (fieldY w))
  ∧ Encoding 0xF00F 0x8002 (fun w => .and (fieldX w) (fieldY w))
  ∧ Encoding 0xF00F 0x8003 (fun w => .xor (fieldX w) (fieldY w))
  ∧ ∀ (x y : Reg) (s : State),
    (∃ t, exec (.or x y) s = .next t
      ∧ (∀ b, (t.getV x).getLsbD b = ((s.getV x).getLsbD b || (s.getV y).getLsbD b))
      ∧ Advances .none s t ∧ UnchangedExcept [.v x] s t)
    ∧ (∃ t, exec (.and x y) s = .next t
      ∧ (∀ b, (t.getV x).getLsbD b = ((s.getV x).getLsbD b && (s.getV y).getLsbD b))
      ∧ Advances .none s t ∧ UnchangedExcept [.v x] s t)
    ∧ (∃ t, exec (.xor x y) s = .next t
      ∧ (∀ b, (t.getV x).getLsbD b = ((s.getV x).getLsbD b ^^ (s.getV y).getLsbD b))
      ∧ Advances .none s t ∧ UnchangedExcept [.v x] s t)

/-- `ADD Vx, Vy` (R167): the sum modulo 256, then the carry in `VF`, which is what remains when `x = F`. -/
def Obligations.AddRegistersSetsCarry : Prop :=
  Encoding 0xF00F 0x8004 (fun w => .addVxVy (fieldX w) (fieldY w))
  ∧ ∀ (x y : Reg) (s : State),
    ∃ t, exec (.addVxVy x y) s = .next t
      ∧ (x ≠ 15 → (t.getV x).toNat = ((s.getV x).toNat + (s.getV y).toNat) % 256)
      ∧ (t.getV 15).toNat = (if 256 ≤ (s.getV x).toNat + (s.getV y).toNat then 1 else 0)
      ∧ Advances .none s t ∧ UnchangedExcept [.v x, .v 15] s t

/-- `SUB` and `SUBN` (R168, R170): the difference modulo 256, then NOT borrow in `VF`. -/
def Obligations.SubtractionsSetNotBorrow : Prop :=
  Encoding 0xF00F 0x8005 (fun w => .sub (fieldX w) (fieldY w))
  ∧ Encoding 0xF00F 0x8007 (fun w => .subn (fieldX w) (fieldY w))
  ∧ ∀ (x y : Reg) (s : State),
    (∃ t, exec (.sub x y) s = .next t
      ∧ (x ≠ 15 → (t.getV x).toNat = ((s.getV x).toNat + 256 - (s.getV y).toNat) % 256)
      ∧ (t.getV 15).toNat = (if (s.getV y).toNat ≤ (s.getV x).toNat then 1 else 0)
      ∧ Advances .none s t ∧ UnchangedExcept [.v x, .v 15] s t)
    ∧ (∃ t, exec (.subn x y) s = .next t
      ∧ (x ≠ 15 → (t.getV x).toNat = ((s.getV y).toNat + 256 - (s.getV x).toNat) % 256)
      ∧ (t.getV 15).toNat = (if (s.getV x).toNat ≤ (s.getV y).toNat then 1 else 0)
      ∧ Advances .none s t ∧ UnchangedExcept [.v x, .v 15] s t)

/-- `SHR` and `SHL` (R169, R171): `V[x]` shifted in place whatever `y` is, then the bit shifted out in `VF`
(with `x = F` the flag remains: the spec's own decision D13). -/
def Obligations.ShiftsSetTheBitShiftedOut : Prop :=
  Encoding 0xF00F 0x8006 (fun w => .shr (fieldX w) (fieldY w))
  ∧ Encoding 0xF00F 0x800E (fun w => .shl (fieldX w) (fieldY w))
  ∧ ∀ (x y : Reg) (s : State),
    (∃ t, exec (.shr x y) s = .next t
      ∧ (x ≠ 15 → (t.getV x).toNat = (s.getV x).toNat / 2)
      ∧ (t.getV 15).toNat = (s.getV x).toNat % 2
      ∧ Advances .none s t ∧ UnchangedExcept [.v x, .v 15] s t)
    ∧ (∃ t, exec (.shl x y) s = .next t
      ∧ (x ≠ 15 → (t.getV x).toNat = 2 * (s.getV x).toNat % 256)
      ∧ (t.getV 15).toNat = (s.getV x).toNat / 128
      ∧ Advances .none s t ∧ UnchangedExcept [.v x, .v 15] s t)

/-- `RND Vx, kk` (R172): exactly one byte is drawn, any byte, and masked; so no bit outside the mask is ever set. That the draws
are an opaque constant applied to a counter is the model's choice (log 5; the spec's decision D26). -/
def Obligations.RndDrawsOneMaskedByte : Prop :=
  Encoding 0xF000 0xC000 (fun w => .rnd (fieldX w) (fieldKk w))
  ∧ ∀ (x : Reg) (kk : Byte) (s : State),
    ∃ t, exec (.rnd x kk) s = .next t ∧ t.getV x = Config.randomByte s.draws &&& kk ∧ t.draws = s.draws + 1
      ∧ (∀ b, kk.getLsbD b = false → (t.getV x).getLsbD b = false)
      ∧ Advances .none s t ∧ UnchangedExcept [.v x, .draws] s t

/-! ### Index register and memory -/

/-- `LD I, nnn` and `ADD I, Vx` (43_index_memory.md R190, R191): the sum is modulo 65536 (no 12-bit wrap), `VF` not modified. -/
def Obligations.IndexLoadsAndAdds : Prop :=
  Encoding 0xF000 0xA000 (fun w => .ldINnn (fieldNnn w))
  ∧ Encoding 0xF0FF 0xF01E (fun w => .addIVx (fieldX w))
  ∧ (∀ (nnn : Nnn) (s : State),
      ∃ t, exec (.ldINnn nnn) s = .next t ∧ t.i.toNat = nnn.toNat ∧ Advances .none s t ∧ UnchangedExcept [.i] s t)
  ∧ ∀ (x : Reg) (s : State),
      ∃ t, exec (.addIVx x) s = .next t ∧ t.i.toNat = (s.i.toNat + (s.getV x).toNat) % 65536
        ∧ Advances .none s t ∧ UnchangedExcept [.i] s t

/-- `LD F, Vx` (R192): the glyph's address for a digit, for every value of the argument `FONT_BASE` (the spec's own decision D3, log
6), a fault for any other value (its decision D15). -/
def Obligations.LdFontPointsAtTheGlyph : Prop :=
  Encoding 0xF0FF 0xF029 (fun w => .ldFVx (fieldX w))
  ∧ ∀ (x : Reg) (s : State),
    ((s.getV x).toNat ≤ 0xF → ∃ t, exec (.ldFVx x) s = .next t ∧ t.i.toNat = s.params.fontBase.val + 5 * (s.getV x).toNat
      ∧ Advances .none s t ∧ UnchangedExcept [.i] s t)
    ∧ (0xF < (s.getV x).toNat → exec (.ldFVx x) s = .fault (.fontIndexOutOfRange (s.getV x)))

/-- `LD B, Vx` (R193): the three decimal digits at `I`, and no other byte; `I` unchanged; out of bounds a fault (the spec's
own decision D8). -/
def Obligations.LdBcdStoresThreeDigits : Prop :=
  Encoding 0xF0FF 0xF033 (fun w => .ldBVx (fieldX w))
  ∧ ∀ (x : Reg) (s : State),
    (s.MemWf → s.i.toNat + 2 < 0x1000 →
      ∃ t, exec (.ldBVx x) s = .next t
        ∧ (t.byteAt s.i.toNat).toNat = (s.getV x).toNat / 100
        ∧ (t.byteAt (s.i.toNat + 1)).toNat = (s.getV x).toNat / 10 % 10
        ∧ (t.byteAt (s.i.toNat + 2)).toNat = (s.getV x).toNat % 10
        ∧ Advances .none s t ∧ UnchangedExcept [.mem s.i.toNat 3] s t)
    ∧ (0x1000 ≤ s.i.toNat + 2 → exec (.ldBVx x) s = .fault (.memoryBounds (max s.i.toNat 0x1000)))

/-- `LD [I], Vx` (R194): `V0..Vx` to memory, inclusive of `x`, and no other byte; `I` unchanged; out of bounds a fault (decision
D8). -/
def Obligations.LdStoreWritesTheRegisters : Prop :=
  Encoding 0xF0FF 0xF055 (fun w => .ldMemVx (fieldX w))
  ∧ ∀ (x : Reg) (s : State),
    (s.MemWf → s.i.toNat + x.val < 0x1000 →
      ∃ t, exec (.ldMemVx x) s = .next t
        ∧ (∀ j : Reg, j.val ≤ x.val → t.byteAt (s.i.toNat + j.val) = s.getV j)
        ∧ Advances .none s t ∧ UnchangedExcept [.mem s.i.toNat (x.val + 1)] s t)
    ∧ (0x1000 ≤ s.i.toNat + x.val → exec (.ldMemVx x) s = .fault (.memoryBounds (max s.i.toNat 0x1000)))

/-- `LD Vx, [I]` (R195): `V0..Vx` from memory, inclusive of `x`; the registers above `x`, memory and `I` unchanged; out of
bounds a fault (decision D8). -/
def Obligations.LdLoadReadsTheRegisters : Prop :=
  Encoding 0xF0FF 0xF065 (fun w => .ldVxMem (fieldX w))
  ∧ ∀ (x : Reg) (s : State),
    (s.i.toNat + x.val < 0x1000 →
      ∃ t, exec (.ldVxMem x) s = .next t
        ∧ (∀ j : Reg, j.val ≤ x.val → t.getV j = s.byteAt (s.i.toNat + j.val))
        ∧ Advances .none s t
        ∧ UnchangedExcept (((List.finRange 16).filter fun j => j.val ≤ x.val).map Part.v) s t)
    ∧ (0x1000 ≤ s.i.toNat + x.val → exec (.ldVxMem x) s = .fault (.memoryBounds (max s.i.toNat 0x1000)))

/-- What `LD [I], Vx` stores is what a later fetch from there reads, big-endian, with no fence (20_memory.md R74, which the
spec marks as its own inference, and R64). -/
def Obligations.StoredBytesAreFetched : Prop :=
  ∀ (s t u : State) (x j k : Reg), s.MemWf → exec (.ldMemVx x) s = .next t →
    k.val = j.val + 1 → k.val ≤ x.val → u.mem = t.mem → u.params = t.params → u.pc.toNat = s.i.toNat + j.val →
    fetch u = .ok (bigEndian (s.getV j) (s.getV k))

/-- A data access that leaves memory raises `MemoryBounds` with the smallest address at or beyond 4096, computed without wrap, and
gives no next state, so nothing is written (20_memory.md R62, the spec's own decision D8). -/
def Obligations.AccessOutsideMemoryFaultsAtTheFirstAddress : Prop :=
  ∀ (i : Instr) (s : State) (k : Nat), k < accessLength i → 0x1000 ≤ s.i.toNat + k →
    (∀ j, j < k → s.i.toNat + j < 0x1000) → exec i s = .fault (.memoryBounds (s.i.toNat + k))

/-- Two memories in canonical form, over any image, that read the same at every address are equal data (the model's form of 20_memory.md R60,
log 11). -/
def Obligations.MemoriesThatReadAlikeAreEqual : Prop :=
  ∀ (img : Image) (m n : Memory), Memory.wf img m → Memory.wf img n →
    (∀ a, a < 0x1000 → Memory.read img m a = Memory.read img n a) → m = n

/-! ### Display -/

/-- `CLS` (44_display.md R210, R212). -/
def Obligations.ClsClearsEveryCell : Prop :=
  Encoding 0xFFFF 0x00E0 (fun _ => .cls)
  ∧ ∀ s : State, ∃ t, exec .cls s = .next t ∧ (∀ c r, Display.cell t.disp c r = false)
      ∧ Advances .clear s t ∧ UnchangedExcept [.disp] s t

/-- `DRW Vx, Vy, n` (R211): the blit of the `n` bytes at `I` at the wrapped start position read before `VF` is written; `VF` is the
collision bit; `I` unchanged; an access out of memory faults, clipped rows included (the spec's own decisions D8 and D23). -/
def Obligations.DrwBlitsTheSprite : Prop :=
  Encoding 0xF000 0xD000 (fun w => .drw (fieldX w) (fieldY w) (fieldN w))
  ∧ ∀ (x y : Reg) (n : Nat) (s : State),
    (n = 0 ∨ s.i.toNat + n ≤ 0x1000 →
      ∃ t p, p = xorSprite ((s.getV x).toNat % 64) ((s.getV y).toNat % 32) (s.spriteBytes n) s.disp
        ∧ exec (.drw x y n) s = .next t ∧ t.disp = p.1 ∧ (t.getV 15).toNat = (if p.2 then 1 else 0)
        ∧ Advances .draw s t ∧ UnchangedExcept [.v 15, .disp] s t)
    ∧ (n ≠ 0 → 0x1000 < s.i.toNat + n → exec (.drw x y n) s = .fault (.memoryBounds (max s.i.toNat 0x1000)))

/-- `xor_sprite` (R213), cell by cell: a sprite bit of 1 inside the grid turns its cell over, every other cell is unchanged (the
sprite is clipped, never wrapped), and the collision bit says whether a lit cell was turned off. -/
def Obligations.XorSpriteTurnsOverTheSpriteBits : Prop :=
  ∀ (sx sy : Nat) (bytes : List Byte) (d : Display), sx < 64 → sy < 32 →
    (∀ c r, c < 64 → r < 32 → Display.cell (xorSprite sx sy bytes d).1 c r =
      (Display.cell d c r ^^ spriteBit sx sy bytes c r))
    ∧ ((xorSprite sx sy bytes d).2 = true ↔
      ∃ c r, c < 64 ∧ r < 32 ∧ spriteBit sx sy bytes c r = true ∧ Display.cell d c r = true)

/-- Drawing twice (from R211, R213): a second `DRW` of the same bytes at the same position, with no display change between, restores
the display, and sets `VF` exactly when the first one lit at least one unclipped cell. (R214's last words, that `VF = 0` only for a
sprite with no unclipped 1-bit, do not follow from R213 when every cell of the sprite was lit before: log 15.) -/
def Obligations.DrawingTwiceRestoresTheDisplay : Prop :=
  ∀ (s t t' u : State) (x y x' y' : Reg) (n : Nat),
    exec (.drw x y n) s = .next t → exec (.drw x' y' n) t' = .next u →
    t'.disp = t.disp → t'.spriteBytes n = s.spriteBytes n →
    (t'.getV x').toNat % 64 = (s.getV x).toNat % 64 → (t'.getV y').toNat % 32 = (s.getV y).toNat % 32 →
    u.disp = s.disp
    ∧ (u.getV 15 = 1 ↔ ∃ c r, c < 64 ∧ r < 32 ∧ Display.cell s.disp c r = false ∧ Display.cell t.disp c r = true)
    ∧ (u.getV 15 = 0 ∨ u.getV 15 = 1)

/-! ### Timers and keypad -/

/-- `LD Vx, DT` and `LD DT, Vx` (45_timers_keypad.md R230, R231). -/
def Obligations.LdMovesTheDelayTimer : Prop :=
  Encoding 0xF0FF 0xF007 (fun w => .ldVxDt (fieldX w))
  ∧ Encoding 0xF0FF 0xF015 (fun w => .ldDtVx (fieldX w))
  ∧ ∀ (x : Reg) (s : State),
    (∃ t, exec (.ldVxDt x) s = .next t ∧ t.getV x = s.dt ∧ Advances .none s t ∧ UnchangedExcept [.v x] s t)
    ∧ (∃ t, exec (.ldDtVx x) s = .next t ∧ t.dt = s.getV x ∧ Advances .none s t ∧ UnchangedExcept [.dt] s t)

/-- `LD ST, Vx` (R232): the sound is on exactly while the new `ST` is above 0, and so is the hint `Sound` (the spec's own decision
D20). -/
def Obligations.LdSetsTheSoundTimer : Prop :=
  Encoding 0xF0FF 0xF018 (fun w => .ldStVx (fieldX w))
  ∧ ∀ (x : Reg) (s : State),
    ∃ t, exec (.ldStVx x) s = .next t ∧ t.st = s.getV x
      ∧ Advances (if 0 < (s.getV x).toNat then .sound else .none) s t
      ∧ (soundOn t = true ↔ 0 < (s.getV x).toNat) ∧ UnchangedExcept [.st] s t

/-- `SKP` and `SKNP` (R233, R234): the current key state of a key number, a fault for any other value (the spec's
own decision D19). -/
def Obligations.SkipOnKey : Prop :=
  Encoding 0xF0FF 0xE09E (fun w => .skp (fieldX w))
  ∧ Encoding 0xF0FF 0xE0A1 (fun w => .sknp (fieldX w))
  ∧ ∀ (x : Reg) (s : State),
    (∀ h : (s.getV x).toNat < 16,
      SkipsWhen (s.keys[(s.getV x).toNat] = true) (.skp x) s
      ∧ SkipsWhen (s.keys[(s.getV x).toNat] = false) (.sknp x) s)
    ∧ (0xF < (s.getV x).toNat →
      exec (.skp x) s = .fault (.keyIndexOutOfRange (s.getV x))
      ∧ exec (.sknp x) s = .fault (.keyIndexOutOfRange (s.getV x)))

/-- `LD Vx, K` (R240): arms the hook, clears the latch unless stale edges are accepted, keeps `PC`, hints `Wait` (the
spec's own decision D17). -/
def Obligations.LdKeyArmsTheHook : Prop :=
  Encoding 0xF0FF 0xF00A (fun w => .ldVxK (fieldX w))
  ∧ ∀ (x : Reg) (s : State),
    ∃ t, exec (.ldVxK x) s = .next t ∧ t.hook = .waitKey x ∧ t.pc = s.pc ∧ t.hint = .wait
      ∧ (s.params.acceptsStaleEdge = false → t.lastEdge = none)
      ∧ (s.params.acceptsStaleEdge = true → t.lastEdge = s.lastEdge)
      ∧ UnchangedExcept [.hook, .lastEdge] s t

/-- A tick takes one from its timer, stops at 0, and touches nothing else (60_exceptions.md R270). -/
def Obligations.TickCountsDownToZero : Prop :=
  ∀ s : State,
    (0 < s.dt.toNat → (tickDT s).dt.toNat = s.dt.toNat - 1) ∧ (s.dt.toNat = 0 → (tickDT s).dt = 0)
    ∧ UnchangedExcept [.dt] s (tickDT s) ∧ (tickDT s).pc = s.pc
    ∧ (0 < s.st.toNat → (tickST s).st.toNat = s.st.toNat - 1) ∧ (s.st.toNat = 0 → (tickST s).st = 0)
    ∧ UnchangedExcept [.st] s (tickST s) ∧ (tickST s).pc = s.pc

/-- `set_key`, `toggle_key` and `set_all` (60_exceptions.md R275 to R277): a single-key update releases every other key and
records the edge with the value before the reset, an index above 15 changes nothing (the spec's own decision D24), and a
bulk update clears the record. -/
def Obligations.KeyUpdatesSetKeysAndLatch : Prop :=
  ∀ (s : State) (i : Nat) (v : Bool) (bits : Vector Bool 16),
    (∀ h : i < 16,
      (∀ k : Fin 16, (setKey i v s).key k = if k.val = i then v else false)
      ∧ (setKey i v s).lastEdge = some ⟨⟨i, h⟩, s.keys[i], v⟩
      ∧ UnchangedExcept [.keys, .lastEdge] s (setKey i v s) ∧ (setKey i v s).pc = s.pc
      ∧ toggleKey i s = setKey i (!s.keys[i]) s)
    ∧ (15 < i → setKey i v s = s ∧ toggleKey i s = s)
    ∧ (∀ k : Fin 16, (setAll bits s).key k = bits[k.val]'k.isLt) ∧ (setAll bits s).lastEdge = none
    ∧ UnchangedExcept [.keys, .lastEdge] s (setAll bits s) ∧ (setAll bits s).pc = s.pc

/-! ### Reset and construction -/

/-- The state after reset with no ROM bytes (10_state.md R37): every row of the table but the unspecified stack entries. The zeros
are the spec's own decision D6 (log 2), the font is the default table of R36 (log 1) at the default base `0x000` (decision D3). -/
def Obligations.ResetLeavesTheListedValues : Prop :=
  State.reset.pc = 0x200 ∧ (∀ x, State.reset.getV x = 0) ∧ State.reset.i = 0 ∧ State.reset.sp = 0
  ∧ State.reset.dt = 0 ∧ State.reset.st = 0
  ∧ (∀ a, State.reset.byteAt a = if a < 80 then fontTable.getD a 0 else 0)
  ∧ (∀ c r, Display.cell State.reset.disp c r = false) ∧ (∀ k, State.reset.key k = false)
  ∧ State.reset.lastEdge = none ∧ State.reset.hook = .none ∧ State.reset.fault = none

/-- The font (10_state.md R36), for every value of the arguments `FONT_BASE` and `FONT_TABLE` (decisions D3, D4; that the argument is
the four pixels of each row is the model's choice, log 12): glyph `d` is at `FONT_BASE + 5d ..`, below `0x200`, a row's pixels in
bits 7 to 4 and nothing in bits 3 to 0; and the default argument is the table of R36, all 80 bytes (PRESUMED, log 1). -/
def Obligations.FontGlyphsAreFourPixelsWide : Prop :=
  (∀ (p : Params) (v : Vector Byte 16) (i : Word) (es : List Event) (d r : Nat) (hd : d < 16) (hr : r < 5),
    let a := p.fontBase.val + 5 * d + r
    a < 0x200
    ∧ (∀ b, b < 4 → ((State.resetWith p v i es).byteAt a).getLsbD (b + 4) = (p.fontRows[5 * d + r]'(by omega)).getLsbD b)
    ∧ ∀ b, b < 4 → ((State.resetWith p v i es).byteAt a).getLsbD b = false)
  ∧ fontTable.length = 80 ∧ ∀ k, k < 80 → fontByte defaultParams k = fontTable.getD k 0

/-- Construction (70_reset_and_hazards.md R300): a ROM that fits is copied to `0x200` over the zero-filled image with the font, for
every value of the model arguments `FX0A_ACCEPTS_STALE_EDGE`, `FONT_BASE`, `FONT_TABLE`, `INIT_REGS` and schedule; a longer one is
refused and there is no machine (the spec's own decisions D6 and D28). That every other field is as `State.resetWith` has it also fixes
the stack entries, which R37 leaves open, at 0: the model's choice (log 3), as are the arguments' form (logs 4, 6, 12) and the font
bytes of the default argument (PRESUMED, log 1). -/
def Obligations.ConstructionLoadsTheRom : Prop :=
  ∀ (p : Params) (v : Vector Byte 16) (i : Word) (es : List Event) (rom : List Byte),
    (3584 < rom.length → construct p v i es rom = .error ⟨rom.length⟩)
    ∧ (rom.length ≤ 3584 → ∃ s, construct p v i es rom = .ok s
      ∧ (∀ a, s.byteAt a =
          if p.fontBase.val ≤ a ∧ a < p.fontBase.val + 80 then fontByte p (a - p.fontBase.val)
          else if 0x200 ≤ a ∧ a < 0x200 + rom.length then rom.getD (a - 0x200) 0 else 0)
      ∧ s = { State.resetWith p v i es with mem := s.mem } ∧ s.Inv)

/-! ### Invariants and whole-machine rules -/

/-- The invariant holds at reset. -/
def Obligations.ResetMeetsTheInvariant : Prop := State.reset.Inv

/-- Every step keeps the invariant, from every state that meets it: memory stays canonical, `PC` stays in the range of 10_state.md
R25, a pending hook stands on a fetched instruction, the held stack entries are addresses a `CALL` can push. -/
def Obligations.StepKeepsTheInvariant : Prop :=
  (∀ s t : State, s.Inv → step s = .next t → t.Inv) ∧ (∀ s : State, s.Inv → (stepCall s).1.Inv)

/-- No instruction runs from outside `[0x200, 0xFFE]`, and an instruction that runs leaves `PC` in `0x200..0x1002` (10_state.md R25,
the spec's own decisions D7 and D10, in states that meet the invariant). -/
def Obligations.InstructionsRunFromProgramMemory : Prop :=
  ∀ (s t : State), s.Inv → Running s → executorStep s = .next t →
    0x200 ≤ s.pc.toNat ∧ s.pc.toNat ≤ 0xFFE ∧ 0x200 ≤ t.pc.toNat ∧ t.pc.toNat ≤ 0x1002

/-- An instruction writes only the registers that the table of 10_state.md R22 gives it. -/
def Obligations.RegistersAreWrittenOnlyAsListed : Prop :=
  ∀ (i : Instr) (s t : State) (r : Reg), exec i s = .next t → t.getV r ≠ s.getV r → r ∈ regsWritten i

/-- Memory is written only by `LD B, Vx` and `LD [I], Vx`, and only at the bytes from `I` that they store (20_memory.md R60, R67). -/
def Obligations.MemoryIsWrittenOnlyThroughIndex : Prop :=
  ∀ (i : Instr) (s t : State) (a : Nat), s.MemWf → exec i s = .next t → t.byteAt a ≠ s.byteAt a →
    ((∃ x, i = .ldBVx x) ∨ ∃ x, i = .ldMemVx x) ∧ s.i.toNat ≤ a ∧ a < s.i.toNat + accessLength i

/-- Who writes what else (10_state.md R26 to R32, R34): the display only `CLS` and `DRW`; `I` only `LD I`, `ADD I`, `LD F`; the
stack only `CALL` and `RET`; `DT` only `LD DT`; `ST` only `LD ST`; the hook and the latch only `LD Vx, K`; no instruction writes
the keys or the fault record. -/
def Obligations.SpecialStateIsWrittenOnlyAsListed : Prop :=
  ∀ (i : Instr) (s t : State), exec i s = .next t →
    (t.disp ≠ s.disp → i = .cls ∨ ∃ x y n, i = .drw x y n)
    ∧ (t.i ≠ s.i → (∃ nnn, i = .ldINnn nnn) ∨ (∃ x, i = .addIVx x) ∨ ∃ x, i = .ldFVx x)
    ∧ (t.stack ≠ s.stack ∨ t.sp ≠ s.sp → (∃ nnn, i = .call nnn) ∨ i = .ret)
    ∧ (t.dt ≠ s.dt → ∃ x, i = .ldDtVx x)
    ∧ (t.st ≠ s.st → ∃ x, i = .ldStVx x)
    ∧ (t.hook ≠ s.hook ∨ t.lastEdge ≠ s.lastEdge → ∃ x, i = .ldVxK x)
    ∧ t.keys = s.keys ∧ t.fault = s.fault

/-- `ST` is read by no instruction (10_state.md R28): with another `ST` every instruction does the same, and leaves that `ST` where
it writes none. -/
def Obligations.SoundTimerIsReadByNoInstruction : Prop :=
  ∀ (i : Instr) (s : State) (b : Byte),
    ((∀ x, i ≠ .ldStVx x) → exec i { s with st := b } = mapNext (fun t => { t with st := b }) (exec i s))
    ∧ (∀ x, i = .ldStVx x → exec i { s with st := b } = exec i s)

/-- No instruction raises a fault that 60_exceptions.md R250 does not give it. -/
def Obligations.InstructionsRaiseOnlyTheListedFaults : Prop :=
  ∀ (i : Instr) (s : State) (f : Fault), exec i s = .fault f → faultsOf i f

/-- Dispatch is total (40_executor.md R127): no step of the machine is refused. -/
def Obligations.NoStepIsRefused : Prop := ∀ (s : State) (r : Refusal), step s ≠ .refused r

/-! ### Executions -/

/-- Every interleaving is an execution (20_memory.md R71, 60_exceptions.md R272, 70_reset_and_hazards.md R321; the spec's own decision
D25): every endless sequence of steps, ticks and key updates goes on for ever from every state, past a fault as well; every finite one
runs to its end; and the machine's steps with that sequence scheduled go through it (the field `schedule` is the model's choice,
log 4). -/
def Obligations.EveryInterleavingIsAnExecution : Prop :=
  (∀ (es : Nat → Event) (s : State), ∃ ss, ss 0 = s ∧ IsExecution es ss)
  ∧ (∀ (es : List Event) (s : State), ∃ t, runEvents es s = .next t)
  ∧ ∀ (es rest : List Event) (s : State),
      runSteps es.length { s with schedule := es ++ rest } = mapNext (fun t => { t with schedule := rest }) (runEvents es s)

/-- Weak fairness (60_exceptions.md R272, R274; the spec's own decision D25, log 13): in a weakly fair execution a timer that nothing
but its ticks changes never rises, falls by at most 1 an event, and ends at 0 for good; and after a fault both timers do so, the fault
staying recorded (R252). -/
def Obligations.WeaklyFairExecutionsRunTimersDown : Prop :=
  ∀ (es : Nat → Event) (ss : Nat → State), WeaklyFair es ss →
    (∀ k, (∀ j, k ≤ j → es j = .tickDT ∨ (ss (j + 1)).dt = (ss j).dt) →
      (∀ j, k ≤ j → (ss (j + 1)).dt.toNat ≤ (ss j).dt.toNat ∧ (ss j).dt.toNat ≤ (ss (j + 1)).dt.toNat + 1)
      ∧ ∃ j, k ≤ j ∧ ∀ m, j ≤ m → (ss m).dt = 0)
    ∧ (∀ k, (∀ j, k ≤ j → es j = .tickST ∨ (ss (j + 1)).st = (ss j).st) →
      (∀ j, k ≤ j → (ss (j + 1)).st.toNat ≤ (ss j).st.toNat ∧ (ss j).st.toNat ≤ (ss (j + 1)).st.toNat + 1)
      ∧ ∃ j, k ≤ j ∧ ∀ m, j ≤ m → (ss m).st = 0)
    ∧ ∀ k f, (ss k).fault = some f →
        ∃ j, k ≤ j ∧ ∀ m, j ≤ m → (ss m).fault = some f ∧ (ss m).dt = 0 ∧ (ss m).st = 0
end

