-- ==== Sys2Proof/Laws/Decode.lean ====
section
/-! SUPPORT. What each field reads from each packed word, and what the byte order does to a word. -/

namespace Sys2Proof

/-! ### Fields as arithmetic -/

theorem fieldT_eq (w : Word) : fieldT w = w.toNat / 4096 := by
  simp [fieldT, BitVec.extractLsb'_toNat, Nat.shiftRight_eq_div_pow]
  omega

theorem fieldX_val (w : Word) : (fieldX w).val = w.toNat / 256 % 16 := by
  simp [fieldX, Nat.shiftRight_eq_div_pow]

theorem fieldY_val (w : Word) : (fieldY w).val = w.toNat / 16 % 16 := by
  simp [fieldY, Nat.shiftRight_eq_div_pow]

theorem fieldN_eq (w : Word) : fieldN w = w.toNat % 16 := by
  simp [fieldN, BitVec.extractLsb'_toNat]

theorem fieldKk_toNat (w : Word) : (fieldKk w).toNat = w.toNat % 256 := by
  simp [fieldKk, BitVec.extractLsb'_toNat]

theorem fieldNnn_toNat (w : Word) : (fieldNnn w).toNat = w.toNat % 4096 := by
  simp [fieldNnn, BitVec.extractLsb'_toNat]

/-! ### Packed words -/

theorem packNibbles_toNat {t a b c : Nat} (ht : t < 16) (ha : a < 16) (hb : b < 16) (hc : c < 16) :
    (packNibbles t a b c).toNat = t * 4096 + a * 256 + b * 16 + c := by
  simp [packNibbles]
  omega

theorem packXKk_toNat {t : Nat} (ht : t < 16) (x : Reg) (kk : Byte) :
    (packXKk t x kk).toNat = t * 4096 + x.val * 256 + kk.toNat := by
  have := kk.isLt
  simp [packXKk]
  omega

theorem packNnn_toNat {t : Nat} (ht : t < 16) (nnn : Nnn) : (packNnn t nnn).toNat = t * 4096 + nnn.toNat := by
  have := nnn.isLt
  simp [packNnn]
  omega

/-! ### Fields of packed words, and words of their fields -/

theorem fieldT_lt (w : Word) : fieldT w < 16 := by
  have := w.isLt
  rw [fieldT_eq]
  omega

theorem fieldN_lt (w : Word) : fieldN w < 16 := by
  rw [fieldN_eq]
  omega

theorem fields_packXKk {t : Nat} (ht : t < 16) (x : Reg) (kk : Byte) :
    fieldT (packXKk t x kk) = t ∧ fieldX (packXKk t x kk) = x ∧ fieldKk (packXKk t x kk) = kk := by
  have := kk.isLt
  have := x.isLt
  refine ⟨?_, Fin.ext ?_, BitVec.eq_of_toNat_eq ?_⟩
  · rw [fieldT_eq, packXKk_toNat ht]; omega
  · rw [fieldX_val, packXKk_toNat ht]; omega
  · rw [fieldKk_toNat, packXKk_toNat ht]; omega

theorem fields_packNnn {t : Nat} (ht : t < 16) (nnn : Nnn) :
    fieldT (packNnn t nnn) = t ∧ fieldNnn (packNnn t nnn) = nnn := by
  have := nnn.isLt
  refine ⟨?_, BitVec.eq_of_toNat_eq ?_⟩
  · rw [fieldT_eq, packNnn_toNat ht]; omega
  · rw [fieldNnn_toNat, packNnn_toNat ht]; omega

theorem fields_packNibbles {t c : Nat} (ht : t < 16) (hc : c < 16) (x y : Reg) :
    fieldT (packNibbles t x.val y.val c) = t ∧ fieldX (packNibbles t x.val y.val c) = x
      ∧ fieldY (packNibbles t x.val y.val c) = y ∧ fieldN (packNibbles t x.val y.val c) = c := by
  have := x.isLt
  have := y.isLt
  refine ⟨?_, Fin.ext ?_, Fin.ext ?_, ?_⟩
  · rw [fieldT_eq, packNibbles_toNat ht x.isLt y.isLt hc]; omega
  · rw [fieldX_val, packNibbles_toNat ht x.isLt y.isLt hc]; omega
  · rw [fieldY_val, packNibbles_toNat ht x.isLt y.isLt hc]; omega
  · rw [fieldN_eq, packNibbles_toNat ht x.isLt y.isLt hc]; omega

theorem packNnn_fields (w : Word) : packNnn (fieldT w) (fieldNnn w) = w := by
  have := w.isLt
  apply BitVec.eq_of_toNat_eq
  rw [packNnn_toNat (fieldT_lt w), fieldT_eq, fieldNnn_toNat]
  omega

theorem packXKk_fields (w : Word) : packXKk (fieldT w) (fieldX w) (fieldKk w) = w := by
  have := w.isLt
  apply BitVec.eq_of_toNat_eq
  rw [packXKk_toNat (fieldT_lt w), fieldT_eq, fieldX_val, fieldKk_toNat]
  omega

theorem packNibbles_fields (w : Word) : packNibbles (fieldT w) (fieldX w).val (fieldY w).val (fieldN w) = w := by
  have := w.isLt
  apply BitVec.eq_of_toNat_eq
  rw [packNibbles_toNat (fieldT_lt w) (fieldX w).isLt (fieldY w).isLt (fieldN_lt w), fieldT_eq, fieldX_val, fieldY_val,
    fieldN_eq]
  omega

/-! ### Masks -/

/-- A mask that keeps the top nibble and the low bits below `2 ^ k`. -/
theorem and_top_low {n m k : Nat} (hn : n < 65536) (hk : k ≤ 12) (hm : m = 0xF000 + (2 ^ k - 1)) :
    n &&& m = n / 4096 * 4096 + n % 2 ^ k := by
  have hlow : n % 2 ^ k < 2 ^ 12 := lt_of_lt_of_le (Nat.mod_lt _ (by positivity)) (Nat.pow_le_pow_right (by norm_num) hk)
  have hmlow : 2 ^ k - 1 < 2 ^ 12 :=
    lt_of_lt_of_le (Nat.sub_lt (by positivity) (by norm_num)) (Nat.pow_le_pow_right (by norm_num) hk)
  have hmask : m = 2 ^ 12 * 15 + (2 ^ k - 1) := by omega
  have hval : n / 4096 * 4096 + n % 2 ^ k = 2 ^ 12 * (n / 4096) + n % 2 ^ k := by omega
  rw [hval, hmask]
  apply Nat.eq_of_testBit_eq
  intro i
  rw [Nat.testBit_and, Nat.testBit_two_pow_mul_add _ hmlow, Nat.testBit_two_pow_mul_add _ hlow]
  by_cases hi : i < 12
  · simp only [hi, if_true, Nat.testBit_two_pow_sub_one, Nat.testBit_mod_two_pow]
    rw [Bool.and_comm]
  · have hd : n / 4096 = n / 2 ^ 12 := rfl
    have h15 : (15 : Nat) = 2 ^ 4 - 1 := rfl
    simp only [hi, if_false, hd, h15, Nat.testBit_two_pow_sub_one, Nat.testBit_div_two_pow]
    have : 12 + (i - 12) = i := by omega
    rw [show i - 12 + 12 = i by omega]
    by_cases h4 : i - 12 < 4
    · simp [h4]
    · have : n.testBit i = false :=
        Nat.testBit_lt_two_pow (lt_of_lt_of_le hn (Nat.pow_le_pow_right (n := 2) (by norm_num) (by omega : 16 ≤ i)))
      simp [h4, this]

/-- The mask of a row whose only fixed nibble is the top one. -/
theorem and_F000 (w : Word) : (w &&& 0xF000#16).toNat = fieldT w * 4096 := by
  rw [BitVec.toNat_and, fieldT_eq]
  exact (and_top_low (k := 0) w.isLt (by norm_num) rfl).trans (by omega)

/-- The mask of a row fixed in its top and bottom nibbles. -/
theorem and_F00F (w : Word) : (w &&& 0xF00F#16).toNat = fieldT w * 4096 + fieldN w := by
  rw [BitVec.toNat_and, fieldT_eq, fieldN_eq]
  exact and_top_low (k := 4) w.isLt (by norm_num) rfl

/-- The mask of a row fixed in its top nibble and low byte. -/
theorem and_F0FF (w : Word) : (w &&& 0xF0FF#16).toNat = fieldT w * 4096 + (fieldKk w).toNat := by
  rw [BitVec.toNat_and, fieldT_eq, fieldKk_toNat]
  exact and_top_low (k := 8) w.isLt (by norm_num) rfl

/-! ### What a row's mask says of the fields -/

theorem fieldT_of_top {w : Word} {t : Nat} (ht : t < 16) (h : w &&& 0xF000#16 = BitVec.ofNat 16 (t * 4096)) :
    fieldT w = t := by
  have e := congrArg BitVec.toNat h
  have := fieldT_lt w
  rw [and_F000, BitVec.toNat_ofNat] at e
  omega

theorem fields_of_nibbles {w : Word} {t c : Nat} (ht : t < 16) (hc : c < 16)
    (h : w &&& 0xF00F#16 = BitVec.ofNat 16 (t * 4096 + c)) : fieldT w = t ∧ fieldN w = c := by
  have e := congrArg BitVec.toNat h
  have := fieldT_lt w
  have := fieldN_lt w
  rw [and_F00F, BitVec.toNat_ofNat] at e
  omega

theorem fields_of_lowByte {w : Word} {t c : Nat} (ht : t < 16) (hc : c < 256)
    (h : w &&& 0xF0FF#16 = BitVec.ofNat 16 (t * 4096 + c)) : fieldT w = t ∧ fieldKk w = BitVec.ofNat 8 c := by
  have e := congrArg BitVec.toNat h
  have := fieldT_lt w
  have := (fieldKk w).isLt
  rw [and_F0FF, BitVec.toNat_ofNat] at e
  refine ⟨by omega, BitVec.eq_of_toNat_eq ?_⟩
  rw [BitVec.toNat_ofNat]
  omega

/-! ### Byte order -/

theorem bigEndian_toNat (hi lo : Byte) : (bigEndian hi lo).toNat = hi.toNat * 256 + lo.toNat := by
  have h1 := hi.isLt
  have h2 := lo.isLt
  have e1 : (hi.setWidth 16 <<< 8).toNat = 2 ^ 8 * hi.toNat := by
    simp [Nat.shiftLeft_eq]
    omega
  have e2 : (lo.setWidth 16).toNat = lo.toNat := by
    simp
    omega
  rw [bigEndian, BitVec.toNat_or, e1, e2, ← Nat.two_pow_add_eq_or_of_lt h2]
  omega

theorem highByte_toNat (w : Word) : (highByte w).toNat = w.toNat / 256 := by
  have := w.isLt
  simp [highByte, BitVec.extractLsb'_toNat, Nat.shiftRight_eq_div_pow]
  omega

theorem lowByte_toNat (w : Word) : (lowByte w).toNat = w.toNat % 256 := by
  simp [lowByte, BitVec.extractLsb'_toNat]

/-- The two bytes of a word, read big-endian, are the word. -/
theorem bigEndian_bytes (w : Word) : bigEndian (highByte w) (lowByte w) = w := by
  apply BitVec.eq_of_toNat_eq
  rw [bigEndian_toNat, highByte_toNat, lowByte_toNat]
  omega

end Sys2Proof
end

