-- ==== Sys2Proof/Laws/Memory.lean ====
section
/-! SUPPORT. The laws of memory: a read after a write, every other place left alone, and every operation keeps the canonical
form. -/

namespace Sys2Proof.Machine

open Config

variable {img : Image}

/-! ### Reading after writing -/

@[simp] theorem Memory.read_nil (a : Nat) : Memory.read img [] a = img a := rfl

theorem Memory.read_cons (k : Nat) (b : Byte) (m : Memory) (a : Nat) :
    Memory.read img ((k, b) :: m) a = if k = a then b else Memory.read img m a := rfl

/-- A memory whose entries all lie above an address lists nothing for it. -/
theorem Memory.read_of_lt {m : Memory} {a : Nat} (h : ∀ p ∈ m, a < p.1) : Memory.read img m a = img a := by
  induction m with
  | nil => rfl
  | cons p m ih =>
    have hp := h p (by simp)
    rw [Memory.read_cons, if_neg (by omega)]
    exact ih fun q hq => h q (by simp [hq])

/-- Putting a byte in front of entries that lie above it. -/
theorem Memory.read_front {m : Memory} {a : Nat} (h : ∀ p ∈ m, a < p.1) (b : Byte) (c : Nat) :
    Memory.read img (Memory.cons img a b m) c = if a = c then b else Memory.read img m c := by
  unfold Memory.cons
  split
  · next hb =>
    split
    · next hc => rw [← hc, Memory.read_of_lt h, hb]
    · rfl
  · rw [Memory.read_cons]

/-- A read after a write, on memory in its canonical form. -/
theorem Memory.read_write {m : Memory} (h : m.Pairwise (fun p q => p.1 < q.1)) (a : Nat) (b : Byte) (c : Nat) :
    Memory.read img (Memory.write img m a b) c = if a = c then b else Memory.read img m c := by
  induction m with
  | nil => exact Memory.read_front (by simp) b c
  | cons p m ih =>
    obtain ⟨k, d⟩ := p
    obtain ⟨hk, hm⟩ := List.pairwise_cons.mp h
    unfold Memory.write
    split
    · next hak =>
      refine Memory.read_front ?_ b c
      intro p hp
      rcases List.mem_cons.mp hp with rfl | hp
      · exact hak
      · exact lt_trans hak (hk p hp)
    · split
      · next _ hak =>
        subst hak
        rw [Memory.read_front hk, Memory.read_cons]
        split <;> simp_all
      · next hlt hne =>
        rw [Memory.read_cons, Memory.read_cons, ih hm]
        by_cases hkc : k = c
        · rw [if_pos hkc, if_pos hkc, if_neg (by omega)]
        · rw [if_neg hkc, if_neg hkc]

/-! ### The canonical form -/

theorem Memory.wf_nil : Memory.wf img [] := by simp [Memory.wf]

theorem Memory.mem_front {m : Memory} {a : Nat} {b : Byte} {p : Host.Cell} (h : p ∈ Memory.cons img a b m) :
    p = (a, b) ∧ b ≠ img a ∨ p ∈ m := by
  unfold Memory.cons at h
  split at h
  · exact Or.inr h
  · next hb => exact (List.mem_cons.mp h).imp (fun e => ⟨e, hb⟩) id

theorem Memory.pairwise_front {m : Memory} (hm : m.Pairwise (fun p q => p.1 < q.1)) {a : Nat} (b : Byte)
    (h : ∀ p ∈ m, a < p.1) : (Memory.cons img a b m).Pairwise (fun p q => p.1 < q.1) := by
  unfold Memory.cons
  split
  · exact hm
  · exact List.pairwise_cons.mpr ⟨h, hm⟩

/-- Every entry after a write is the written byte or an old entry. -/
theorem Memory.mem_write {m : Memory} {a : Nat} {b : Byte} {p : Host.Cell} (h : p ∈ Memory.write img m a b) :
    p = (a, b) ∧ b ≠ img a ∨ p ∈ m := by
  induction m with
  | nil => exact Memory.mem_front h
  | cons q m ih =>
    obtain ⟨k, d⟩ := q
    unfold Memory.write at h
    split at h
    · exact Memory.mem_front h
    · split at h
      · exact (Memory.mem_front h).imp id (List.mem_cons_of_mem _)
      · rcases List.mem_cons.mp h with rfl | h
        · exact Or.inr (by simp)
        · exact (ih h).imp id (List.mem_cons_of_mem _)

/-- A write to an address inside memory keeps the canonical form. -/
theorem Memory.wf_write {m : Memory} (h : Memory.wf img m) {a : Nat} (ha : a < memSize) (b : Byte) :
    Memory.wf img (Memory.write img m a b) := by
  refine ⟨?_, ?_⟩
  · have hm := h.1
    clear h
    induction m with
    | nil => exact Memory.pairwise_front hm b (by simp)
    | cons q m ih =>
      obtain ⟨k, d⟩ := q
      obtain ⟨hk, hm'⟩ := List.pairwise_cons.mp hm
      unfold Memory.write
      split
      · next hak =>
        refine Memory.pairwise_front hm b fun p hp => ?_
        rcases List.mem_cons.mp hp with rfl | hp
        · exact hak
        · exact lt_trans hak (hk p hp)
      · split
        · next _ hak => subst hak; exact Memory.pairwise_front hm' b hk
        · next hlt hne =>
          refine List.pairwise_cons.mpr ⟨fun p hp => ?_, ih hm'⟩
          rcases Memory.mem_write hp with ⟨rfl, _⟩ | hp
          · show k < a; omega
          · exact hk p hp
  · intro p hp
    rcases Memory.mem_write hp with ⟨rfl, hb⟩ | hp
    · exact ⟨ha, hb⟩
    · exact h.2 p hp

/-- A run of writes inside memory keeps the canonical form. -/
theorem Memory.wf_writeBytes {m : Memory} (h : Memory.wf img m) {a : Nat} {bs : List Byte} (ha : a + bs.length ≤ memSize) :
    Memory.wf img (Memory.writeBytes img m a bs) := by
  induction bs generalizing m a with
  | nil => exact h
  | cons b bs ih =>
    rw [List.length_cons] at ha
    exact ih (Memory.wf_write h (by omega) b) (by omega)

/-- A read after a run of writes: the byte written there, or what was there. -/
theorem Memory.read_writeBytes {m : Memory} (h : Memory.wf img m) {a : Nat} {bs : List Byte} (ha : a + bs.length ≤ memSize)
    (c : Nat) :
    Memory.read img (Memory.writeBytes img m a bs) c =
      if h : a ≤ c ∧ c < a + bs.length then bs[c - a]'(by omega) else Memory.read img m c := by
  induction bs generalizing m a with
  | nil => rw [dif_neg (by simp)]; rfl
  | cons b bs ih =>
    rw [List.length_cons] at ha
    show Memory.read img (Memory.writeBytes img (Memory.write img m a b) (a + 1) bs) c = _
    rw [ih (Memory.wf_write h (by omega) b) (by omega), Memory.read_write h.1]
    by_cases hc : a = c
    · subst hc
      rw [dif_neg (by omega), dif_pos (by simp), if_pos rfl]
      simp
    · by_cases hin : a + 1 ≤ c ∧ c < a + 1 + bs.length
      · rw [dif_pos hin, dif_pos (by simp; omega)]
        have : c - a = (c - (a + 1)) + 1 := by omega
        simp [this]
      · rw [dif_neg hin, dif_neg (by simp; omega), if_neg hc]

/-! ### Reading in bulk -/

@[simp] theorem Memory.length_readBytes (m : Memory) (a n : Nat) : (Memory.readBytes img m a n).length = n := by
  induction n generalizing a with
  | zero => rfl
  | succ n ih => simp [Memory.readBytes, ih]

theorem Memory.getElem_readBytes (m : Memory) (a n j : Nat) (h : j < (Memory.readBytes img m a n).length) :
    (Memory.readBytes img m a n)[j] = Memory.read img m (a + j) := by
  induction n generalizing a j with
  | zero => simp [Memory.readBytes] at h
  | succ n ih =>
    cases j with
    | zero => rfl
    | succ j =>
      simp only [Memory.readBytes, List.getElem_cons_succ]
      rw [ih]
      congr 1
      omega

/-! ### Memory from its bytes -/

/-- Memory made from its bytes is in canonical form. -/
theorem Memory.wf_ofBytes (f : Nat → Byte) : Memory.wf img (Memory.ofBytes img f) := by
  refine ⟨?_, ?_⟩
  · unfold Memory.ofBytes
    rw [List.pairwise_filterMap]
    refine List.Pairwise.imp ?_ List.pairwise_lt_range
    intro a b hab p hp q hq
    split at hp
    · cases hp
    · split at hq
      · cases hq
      · cases hp; cases hq; exact hab
  · intro p hp
    obtain ⟨a, ha, hp⟩ := List.mem_filterMap.mp hp
    split at hp
    · cases hp
    · next hb => cases hp; exact ⟨List.mem_range.mp ha, hb⟩

end Sys2Proof.Machine
end

