-- ==== Sys2Proof/Laws/State.lean ====
section
/-! SUPPORT. One lemma per field per named update of the state, each true by `rfl`, so that no later proof unfolds an update; and
what reading a register gives after a write. -/

namespace Sys2Proof.Machine

/-- The image under memory depends on the model arguments alone, which no update changes. -/
@[simp] theorem State.image_eq (s : State) : s.image = initialByte s.params := rfl

/-! ### `setV` -/

@[simp] theorem State.setV_i (s : State) (x : Reg) (b : Byte) : (s.setV x b).i = s.i := rfl
@[simp] theorem State.setV_pc (s : State) (x : Reg) (b : Byte) : (s.setV x b).pc = s.pc := rfl
@[simp] theorem State.setV_stack (s : State) (x : Reg) (b : Byte) : (s.setV x b).stack = s.stack := rfl
@[simp] theorem State.setV_sp (s : State) (x : Reg) (b : Byte) : (s.setV x b).sp = s.sp := rfl
@[simp] theorem State.setV_dt (s : State) (x : Reg) (b : Byte) : (s.setV x b).dt = s.dt := rfl
@[simp] theorem State.setV_st (s : State) (x : Reg) (b : Byte) : (s.setV x b).st = s.st := rfl
@[simp] theorem State.setV_mem (s : State) (x : Reg) (b : Byte) : (s.setV x b).mem = s.mem := rfl
@[simp] theorem State.setV_disp (s : State) (x : Reg) (b : Byte) : (s.setV x b).disp = s.disp := rfl
@[simp] theorem State.setV_keys (s : State) (x : Reg) (b : Byte) : (s.setV x b).keys = s.keys := rfl
@[simp] theorem State.setV_lastEdge (s : State) (x : Reg) (b : Byte) : (s.setV x b).lastEdge = s.lastEdge := rfl
@[simp] theorem State.setV_hook (s : State) (x : Reg) (b : Byte) : (s.setV x b).hook = s.hook := rfl
@[simp] theorem State.setV_fault (s : State) (x : Reg) (b : Byte) : (s.setV x b).fault = s.fault := rfl
@[simp] theorem State.setV_params (s : State) (x : Reg) (b : Byte) : (s.setV x b).params = s.params := rfl
@[simp] theorem State.setV_hint (s : State) (x : Reg) (b : Byte) : (s.setV x b).hint = s.hint := rfl
@[simp] theorem State.setV_draws (s : State) (x : Reg) (b : Byte) : (s.setV x b).draws = s.draws := rfl
@[simp] theorem State.setV_schedule (s : State) (x : Reg) (b : Byte) : (s.setV x b).schedule = s.schedule := rfl

@[simp] theorem State.getV_setV_same (s : State) (x : Reg) (b : Byte) : (s.setV x b).getV x = b := by
  simp [State.getV, State.setV]

theorem State.getV_setV_ne (s : State) {x y : Reg} (b : Byte) (h : y ≠ x) : (s.setV x b).getV y = s.getV y := by
  have : x.val ≠ y.val := fun e => h (Fin.ext e.symm)
  simp [State.getV, State.setV, this]

theorem State.getV_setV (s : State) (x y : Reg) (b : Byte) :
    (s.setV x b).getV y = if y = x then b else s.getV y := by
  split
  · next h => rw [h, State.getV_setV_same]
  · next h => exact State.getV_setV_ne s b h

@[simp] theorem State.byteAt_setV (s : State) (x : Reg) (b : Byte) (a : Nat) : (s.setV x b).byteAt a = s.byteAt a := rfl

/-! ### `setResultThenFlag` -/

@[simp] theorem State.setResultThenFlag_i (s : State) (x : Reg) (rf : Byte × Byte) : (s.setResultThenFlag x rf).i = s.i := rfl
@[simp] theorem State.setResultThenFlag_pc (s : State) (x : Reg) (rf : Byte × Byte) : (s.setResultThenFlag x rf).pc = s.pc := rfl
@[simp] theorem State.setResultThenFlag_stack (s : State) (x : Reg) (rf : Byte × Byte) : (s.setResultThenFlag x rf).stack = s.stack := rfl
@[simp] theorem State.setResultThenFlag_sp (s : State) (x : Reg) (rf : Byte × Byte) : (s.setResultThenFlag x rf).sp = s.sp := rfl
@[simp] theorem State.setResultThenFlag_dt (s : State) (x : Reg) (rf : Byte × Byte) : (s.setResultThenFlag x rf).dt = s.dt := rfl
@[simp] theorem State.setResultThenFlag_st (s : State) (x : Reg) (rf : Byte × Byte) : (s.setResultThenFlag x rf).st = s.st := rfl
@[simp] theorem State.setResultThenFlag_mem (s : State) (x : Reg) (rf : Byte × Byte) : (s.setResultThenFlag x rf).mem = s.mem := rfl
@[simp] theorem State.setResultThenFlag_disp (s : State) (x : Reg) (rf : Byte × Byte) : (s.setResultThenFlag x rf).disp = s.disp := rfl
@[simp] theorem State.setResultThenFlag_keys (s : State) (x : Reg) (rf : Byte × Byte) : (s.setResultThenFlag x rf).keys = s.keys := rfl
@[simp] theorem State.setResultThenFlag_lastEdge (s : State) (x : Reg) (rf : Byte × Byte) : (s.setResultThenFlag x rf).lastEdge = s.lastEdge := rfl
@[simp] theorem State.setResultThenFlag_hook (s : State) (x : Reg) (rf : Byte × Byte) : (s.setResultThenFlag x rf).hook = s.hook := rfl
@[simp] theorem State.setResultThenFlag_fault (s : State) (x : Reg) (rf : Byte × Byte) : (s.setResultThenFlag x rf).fault = s.fault := rfl
@[simp] theorem State.setResultThenFlag_params (s : State) (x : Reg) (rf : Byte × Byte) : (s.setResultThenFlag x rf).params = s.params := rfl
@[simp] theorem State.setResultThenFlag_hint (s : State) (x : Reg) (rf : Byte × Byte) : (s.setResultThenFlag x rf).hint = s.hint := rfl
@[simp] theorem State.setResultThenFlag_draws (s : State) (x : Reg) (rf : Byte × Byte) : (s.setResultThenFlag x rf).draws = s.draws := rfl
@[simp] theorem State.setResultThenFlag_schedule (s : State) (x : Reg) (rf : Byte × Byte) : (s.setResultThenFlag x rf).schedule = s.schedule := rfl

@[simp] theorem State.getV_setResultThenFlag_vf (s : State) (x : Reg) (rf : Byte × Byte) :
    (s.setResultThenFlag x rf).getV vf = rf.2 := by
  simp [State.setResultThenFlag]

theorem State.getV_setResultThenFlag (s : State) (x y : Reg) (rf : Byte × Byte) :
    (s.setResultThenFlag x rf).getV y = if y = vf then rf.2 else if y = x then rf.1 else s.getV y := by
  simp [State.setResultThenFlag, State.getV_setV]

/-! ### `storeBytes` -/

@[simp] theorem State.storeBytes_v (s : State) (a : Nat) (bs : List Byte) : (s.storeBytes a bs).v = s.v := rfl
@[simp] theorem State.storeBytes_i (s : State) (a : Nat) (bs : List Byte) : (s.storeBytes a bs).i = s.i := rfl
@[simp] theorem State.storeBytes_pc (s : State) (a : Nat) (bs : List Byte) : (s.storeBytes a bs).pc = s.pc := rfl
@[simp] theorem State.storeBytes_stack (s : State) (a : Nat) (bs : List Byte) : (s.storeBytes a bs).stack = s.stack := rfl
@[simp] theorem State.storeBytes_sp (s : State) (a : Nat) (bs : List Byte) : (s.storeBytes a bs).sp = s.sp := rfl
@[simp] theorem State.storeBytes_dt (s : State) (a : Nat) (bs : List Byte) : (s.storeBytes a bs).dt = s.dt := rfl
@[simp] theorem State.storeBytes_st (s : State) (a : Nat) (bs : List Byte) : (s.storeBytes a bs).st = s.st := rfl
@[simp] theorem State.storeBytes_disp (s : State) (a : Nat) (bs : List Byte) : (s.storeBytes a bs).disp = s.disp := rfl
@[simp] theorem State.storeBytes_keys (s : State) (a : Nat) (bs : List Byte) : (s.storeBytes a bs).keys = s.keys := rfl
@[simp] theorem State.storeBytes_lastEdge (s : State) (a : Nat) (bs : List Byte) : (s.storeBytes a bs).lastEdge = s.lastEdge := rfl
@[simp] theorem State.storeBytes_hook (s : State) (a : Nat) (bs : List Byte) : (s.storeBytes a bs).hook = s.hook := rfl
@[simp] theorem State.storeBytes_fault (s : State) (a : Nat) (bs : List Byte) : (s.storeBytes a bs).fault = s.fault := rfl
@[simp] theorem State.storeBytes_params (s : State) (a : Nat) (bs : List Byte) : (s.storeBytes a bs).params = s.params := rfl
@[simp] theorem State.storeBytes_hint (s : State) (a : Nat) (bs : List Byte) : (s.storeBytes a bs).hint = s.hint := rfl
@[simp] theorem State.storeBytes_draws (s : State) (a : Nat) (bs : List Byte) : (s.storeBytes a bs).draws = s.draws := rfl
@[simp] theorem State.storeBytes_schedule (s : State) (a : Nat) (bs : List Byte) : (s.storeBytes a bs).schedule = s.schedule := rfl

@[simp] theorem State.getV_storeBytes (s : State) (a : Nat) (bs : List Byte) (x : Reg) :
    (s.storeBytes a bs).getV x = s.getV x := rfl

/-! ### `loadRegs` -/

@[simp] theorem State.loadRegs_i (s : State) (a : Nat) (x : Reg) : (s.loadRegs a x).i = s.i := rfl
@[simp] theorem State.loadRegs_pc (s : State) (a : Nat) (x : Reg) : (s.loadRegs a x).pc = s.pc := rfl
@[simp] theorem State.loadRegs_stack (s : State) (a : Nat) (x : Reg) : (s.loadRegs a x).stack = s.stack := rfl
@[simp] theorem State.loadRegs_sp (s : State) (a : Nat) (x : Reg) : (s.loadRegs a x).sp = s.sp := rfl
@[simp] theorem State.loadRegs_dt (s : State) (a : Nat) (x : Reg) : (s.loadRegs a x).dt = s.dt := rfl
@[simp] theorem State.loadRegs_st (s : State) (a : Nat) (x : Reg) : (s.loadRegs a x).st = s.st := rfl
@[simp] theorem State.loadRegs_mem (s : State) (a : Nat) (x : Reg) : (s.loadRegs a x).mem = s.mem := rfl
@[simp] theorem State.loadRegs_disp (s : State) (a : Nat) (x : Reg) : (s.loadRegs a x).disp = s.disp := rfl
@[simp] theorem State.loadRegs_keys (s : State) (a : Nat) (x : Reg) : (s.loadRegs a x).keys = s.keys := rfl
@[simp] theorem State.loadRegs_lastEdge (s : State) (a : Nat) (x : Reg) : (s.loadRegs a x).lastEdge = s.lastEdge := rfl
@[simp] theorem State.loadRegs_hook (s : State) (a : Nat) (x : Reg) : (s.loadRegs a x).hook = s.hook := rfl
@[simp] theorem State.loadRegs_fault (s : State) (a : Nat) (x : Reg) : (s.loadRegs a x).fault = s.fault := rfl
@[simp] theorem State.loadRegs_params (s : State) (a : Nat) (x : Reg) : (s.loadRegs a x).params = s.params := rfl
@[simp] theorem State.loadRegs_hint (s : State) (a : Nat) (x : Reg) : (s.loadRegs a x).hint = s.hint := rfl
@[simp] theorem State.loadRegs_draws (s : State) (a : Nat) (x : Reg) : (s.loadRegs a x).draws = s.draws := rfl
@[simp] theorem State.loadRegs_schedule (s : State) (a : Nat) (x : Reg) : (s.loadRegs a x).schedule = s.schedule := rfl

theorem State.getV_loadRegs (s : State) (a : Nat) (x y : Reg) :
    (s.loadRegs a x).getV y = if y.val ≤ x.val then s.byteAt (a + y.val) else s.getV y := by
  simp [State.loadRegs, State.getV]

@[simp] theorem State.byteAt_loadRegs (s : State) (a : Nat) (x : Reg) (b : Nat) :
    (s.loadRegs a x).byteAt b = s.byteAt b := rfl

/-! ### `recordFault` -/

@[simp] theorem State.recordFault_dt (s : State) (f : Fault) : (s.recordFault f).dt = s.dt := rfl
@[simp] theorem State.recordFault_st (s : State) (f : Fault) : (s.recordFault f).st = s.st := rfl
@[simp] theorem State.recordFault_params (s : State) (f : Fault) : (s.recordFault f).params = s.params := rfl
@[simp] theorem State.recordFault_hint (s : State) (f : Fault) : (s.recordFault f).hint = s.hint := rfl
@[simp] theorem State.recordFault_schedule (s : State) (f : Fault) : (s.recordFault f).schedule = s.schedule := rfl

@[simp] theorem State.recordFault_fault (s : State) (f : Fault) : (s.recordFault f).fault = some f := rfl

/-! ### `tickDT` -/

@[simp] theorem tickDT_v (s : State) : (tickDT s).v = s.v := rfl
@[simp] theorem tickDT_i (s : State) : (tickDT s).i = s.i := rfl
@[simp] theorem tickDT_pc (s : State) : (tickDT s).pc = s.pc := rfl
@[simp] theorem tickDT_stack (s : State) : (tickDT s).stack = s.stack := rfl
@[simp] theorem tickDT_sp (s : State) : (tickDT s).sp = s.sp := rfl
@[simp] theorem tickDT_st (s : State) : (tickDT s).st = s.st := rfl
@[simp] theorem tickDT_mem (s : State) : (tickDT s).mem = s.mem := rfl
@[simp] theorem tickDT_disp (s : State) : (tickDT s).disp = s.disp := rfl
@[simp] theorem tickDT_keys (s : State) : (tickDT s).keys = s.keys := rfl
@[simp] theorem tickDT_lastEdge (s : State) : (tickDT s).lastEdge = s.lastEdge := rfl
@[simp] theorem tickDT_hook (s : State) : (tickDT s).hook = s.hook := rfl
@[simp] theorem tickDT_fault (s : State) : (tickDT s).fault = s.fault := rfl
@[simp] theorem tickDT_params (s : State) : (tickDT s).params = s.params := rfl
@[simp] theorem tickDT_hint (s : State) : (tickDT s).hint = s.hint := rfl
@[simp] theorem tickDT_draws (s : State) : (tickDT s).draws = s.draws := rfl
@[simp] theorem tickDT_schedule (s : State) : (tickDT s).schedule = s.schedule := rfl

/-! ### `tickST` -/

@[simp] theorem tickST_v (s : State) : (tickST s).v = s.v := rfl
@[simp] theorem tickST_i (s : State) : (tickST s).i = s.i := rfl
@[simp] theorem tickST_pc (s : State) : (tickST s).pc = s.pc := rfl
@[simp] theorem tickST_stack (s : State) : (tickST s).stack = s.stack := rfl
@[simp] theorem tickST_sp (s : State) : (tickST s).sp = s.sp := rfl
@[simp] theorem tickST_dt (s : State) : (tickST s).dt = s.dt := rfl
@[simp] theorem tickST_mem (s : State) : (tickST s).mem = s.mem := rfl
@[simp] theorem tickST_disp (s : State) : (tickST s).disp = s.disp := rfl
@[simp] theorem tickST_keys (s : State) : (tickST s).keys = s.keys := rfl
@[simp] theorem tickST_lastEdge (s : State) : (tickST s).lastEdge = s.lastEdge := rfl
@[simp] theorem tickST_hook (s : State) : (tickST s).hook = s.hook := rfl
@[simp] theorem tickST_fault (s : State) : (tickST s).fault = s.fault := rfl
@[simp] theorem tickST_params (s : State) : (tickST s).params = s.params := rfl
@[simp] theorem tickST_hint (s : State) : (tickST s).hint = s.hint := rfl
@[simp] theorem tickST_draws (s : State) : (tickST s).draws = s.draws := rfl
@[simp] theorem tickST_schedule (s : State) : (tickST s).schedule = s.schedule := rfl

/-! ### `updateKey` -/

@[simp] theorem updateKey_v (k : Fin 16) (v : Bool) (s : State) : (updateKey k v s).v = s.v := rfl
@[simp] theorem updateKey_i (k : Fin 16) (v : Bool) (s : State) : (updateKey k v s).i = s.i := rfl
@[simp] theorem updateKey_pc (k : Fin 16) (v : Bool) (s : State) : (updateKey k v s).pc = s.pc := rfl
@[simp] theorem updateKey_stack (k : Fin 16) (v : Bool) (s : State) : (updateKey k v s).stack = s.stack := rfl
@[simp] theorem updateKey_sp (k : Fin 16) (v : Bool) (s : State) : (updateKey k v s).sp = s.sp := rfl
@[simp] theorem updateKey_dt (k : Fin 16) (v : Bool) (s : State) : (updateKey k v s).dt = s.dt := rfl
@[simp] theorem updateKey_st (k : Fin 16) (v : Bool) (s : State) : (updateKey k v s).st = s.st := rfl
@[simp] theorem updateKey_mem (k : Fin 16) (v : Bool) (s : State) : (updateKey k v s).mem = s.mem := rfl
@[simp] theorem updateKey_disp (k : Fin 16) (v : Bool) (s : State) : (updateKey k v s).disp = s.disp := rfl
@[simp] theorem updateKey_hook (k : Fin 16) (v : Bool) (s : State) : (updateKey k v s).hook = s.hook := rfl
@[simp] theorem updateKey_fault (k : Fin 16) (v : Bool) (s : State) : (updateKey k v s).fault = s.fault := rfl
@[simp] theorem updateKey_params (k : Fin 16) (v : Bool) (s : State) : (updateKey k v s).params = s.params := rfl
@[simp] theorem updateKey_hint (k : Fin 16) (v : Bool) (s : State) : (updateKey k v s).hint = s.hint := rfl
@[simp] theorem updateKey_draws (k : Fin 16) (v : Bool) (s : State) : (updateKey k v s).draws = s.draws := rfl
@[simp] theorem updateKey_schedule (k : Fin 16) (v : Bool) (s : State) : (updateKey k v s).schedule = s.schedule := rfl

theorem key_updateKey (k j : Fin 16) (v : Bool) (s : State) : (updateKey k v s).key j = if j = k then v else false := by
  by_cases h : j = k
  · simp [updateKey, State.key, h]
  · have : k.val ≠ j.val := fun e => h (Fin.ext e.symm)
    simp [updateKey, State.key, h, this]

/-! ### `setAll` -/

@[simp] theorem setAll_v (bits : Vector Bool 16) (s : State) : (setAll bits s).v = s.v := rfl
@[simp] theorem setAll_i (bits : Vector Bool 16) (s : State) : (setAll bits s).i = s.i := rfl
@[simp] theorem setAll_pc (bits : Vector Bool 16) (s : State) : (setAll bits s).pc = s.pc := rfl
@[simp] theorem setAll_stack (bits : Vector Bool 16) (s : State) : (setAll bits s).stack = s.stack := rfl
@[simp] theorem setAll_sp (bits : Vector Bool 16) (s : State) : (setAll bits s).sp = s.sp := rfl
@[simp] theorem setAll_dt (bits : Vector Bool 16) (s : State) : (setAll bits s).dt = s.dt := rfl
@[simp] theorem setAll_st (bits : Vector Bool 16) (s : State) : (setAll bits s).st = s.st := rfl
@[simp] theorem setAll_mem (bits : Vector Bool 16) (s : State) : (setAll bits s).mem = s.mem := rfl
@[simp] theorem setAll_disp (bits : Vector Bool 16) (s : State) : (setAll bits s).disp = s.disp := rfl
@[simp] theorem setAll_hook (bits : Vector Bool 16) (s : State) : (setAll bits s).hook = s.hook := rfl
@[simp] theorem setAll_fault (bits : Vector Bool 16) (s : State) : (setAll bits s).fault = s.fault := rfl
@[simp] theorem setAll_params (bits : Vector Bool 16) (s : State) : (setAll bits s).params = s.params := rfl
@[simp] theorem setAll_hint (bits : Vector Bool 16) (s : State) : (setAll bits s).hint = s.hint := rfl
@[simp] theorem setAll_draws (bits : Vector Bool 16) (s : State) : (setAll bits s).draws = s.draws := rfl
@[simp] theorem setAll_schedule (bits : Vector Bool 16) (s : State) : (setAll bits s).schedule = s.schedule := rfl

/-! ### `completeHook` -/

@[simp] theorem completeHook_i (x : Reg) (k : Fin 16) (s : State) : (completeHook x k s).i = s.i := rfl
@[simp] theorem completeHook_stack (x : Reg) (k : Fin 16) (s : State) : (completeHook x k s).stack = s.stack := rfl
@[simp] theorem completeHook_sp (x : Reg) (k : Fin 16) (s : State) : (completeHook x k s).sp = s.sp := rfl
@[simp] theorem completeHook_dt (x : Reg) (k : Fin 16) (s : State) : (completeHook x k s).dt = s.dt := rfl
@[simp] theorem completeHook_st (x : Reg) (k : Fin 16) (s : State) : (completeHook x k s).st = s.st := rfl
@[simp] theorem completeHook_mem (x : Reg) (k : Fin 16) (s : State) : (completeHook x k s).mem = s.mem := rfl
@[simp] theorem completeHook_disp (x : Reg) (k : Fin 16) (s : State) : (completeHook x k s).disp = s.disp := rfl
@[simp] theorem completeHook_keys (x : Reg) (k : Fin 16) (s : State) : (completeHook x k s).keys = s.keys := rfl
@[simp] theorem completeHook_lastEdge (x : Reg) (k : Fin 16) (s : State) : (completeHook x k s).lastEdge = s.lastEdge := rfl
@[simp] theorem completeHook_fault (x : Reg) (k : Fin 16) (s : State) : (completeHook x k s).fault = s.fault := rfl
@[simp] theorem completeHook_params (x : Reg) (k : Fin 16) (s : State) : (completeHook x k s).params = s.params := rfl
@[simp] theorem completeHook_draws (x : Reg) (k : Fin 16) (s : State) : (completeHook x k s).draws = s.draws := rfl
@[simp] theorem completeHook_schedule (x : Reg) (k : Fin 16) (s : State) : (completeHook x k s).schedule = s.schedule := rfl

/-! ### `placeWord` -/

@[simp] theorem placeWord_v (s : State) (w : Word) : (placeWord s w).v = s.v := rfl
@[simp] theorem placeWord_i (s : State) (w : Word) : (placeWord s w).i = s.i := rfl
@[simp] theorem placeWord_stack (s : State) (w : Word) : (placeWord s w).stack = s.stack := rfl
@[simp] theorem placeWord_sp (s : State) (w : Word) : (placeWord s w).sp = s.sp := rfl
@[simp] theorem placeWord_dt (s : State) (w : Word) : (placeWord s w).dt = s.dt := rfl
@[simp] theorem placeWord_st (s : State) (w : Word) : (placeWord s w).st = s.st := rfl
@[simp] theorem placeWord_disp (s : State) (w : Word) : (placeWord s w).disp = s.disp := rfl
@[simp] theorem placeWord_keys (s : State) (w : Word) : (placeWord s w).keys = s.keys := rfl
@[simp] theorem placeWord_lastEdge (s : State) (w : Word) : (placeWord s w).lastEdge = s.lastEdge := rfl
@[simp] theorem placeWord_params (s : State) (w : Word) : (placeWord s w).params = s.params := rfl
@[simp] theorem placeWord_hint (s : State) (w : Word) : (placeWord s w).hint = s.hint := rfl
@[simp] theorem placeWord_draws (s : State) (w : Word) : (placeWord s w).draws = s.draws := rfl

@[simp] theorem placeWord_fault (s : State) (w : Word) : (placeWord s w).fault = none := rfl
@[simp] theorem placeWord_hook (s : State) (w : Word) : (placeWord s w).hook = .none := rfl
@[simp] theorem placeWord_schedule (s : State) (w : Word) : (placeWord s w).schedule = [] := rfl

end Sys2Proof.Machine
end

