-- ==== Sys2Proof/Laws/Ops.lean ====
section
/-! SUPPORT. One lemma per shared operation that says once everything it can do; provers cite these instead of unfolding. -/

namespace Sys2Proof.Machine

open Config

/-! ### Completing a step -/

theorem complete_next (h : Hint) (s : State) : complete .next h s = .next { s with pc := s.pc + 2, hint := h } := rfl

theorem complete_skip (h : Hint) (s : State) : complete .skip h s = .next { s with pc := s.pc + 4, hint := h } := rfl

theorem complete_stay (h : Hint) (s : State) : complete .stay h s = .next { s with hint := h } := rfl

theorem complete_jump (h : Hint) (s : State) {a : Nat} (ha : 0x200 ≤ a ∧ a < 0x1000) :
    complete (.jump a) h s = .next { s with pc := BitVec.ofNat 16 a, hint := h } := if_pos ha

theorem complete_jump_fault (h : Hint) (s : State) {a : Nat} (ha : ¬(0x200 ≤ a ∧ a < 0x1000)) :
    complete (.jump a) h s = .fault (.jumpOutOfBounds a) := if_neg ha

/-- Everything a completed step can do to the state: a new `PC` and the hint, and nothing else. -/
theorem complete_cases {dir : Directive} {h : Hint} {s t : State} (e : complete dir h s = .next t) :
    ∃ pc, t = { s with pc := pc, hint := h } ∧
      (pc = s.pc + 2 ∧ dir = .next ∨ pc = s.pc + 4 ∧ dir = .skip ∨ pc = s.pc ∧ dir = .stay ∨
        ∃ a, dir = .jump a ∧ 0x200 ≤ a ∧ a < 0x1000 ∧ pc = BitVec.ofNat 16 a) := by
  cases dir with
  | next => cases e; exact ⟨_, rfl, .inl ⟨rfl, rfl⟩⟩
  | skip => cases e; exact ⟨_, rfl, .inr (.inl ⟨rfl, rfl⟩)⟩
  | stay => cases e; exact ⟨_, rfl, .inr (.inr (.inl ⟨rfl, rfl⟩))⟩
  | jump a =>
    by_cases ha : 0x200 ≤ a ∧ a < 0x1000
    · rw [complete_jump h s ha] at e
      cases e
      exact ⟨_, rfl, .inr (.inr (.inr ⟨a, rfl, ha.1, ha.2, rfl⟩))⟩
    · rw [complete_jump_fault h s ha] at e
      cases e

/-- A completed step never refuses. -/
theorem complete_not_refused (dir : Directive) (h : Hint) (s : State) (r : Refusal) : complete dir h s ≠ .refused r := by
  cases dir with
  | next | skip | stay => intro e; cases e
  | jump a => unfold complete; intro e; dsimp only at e; split at e <;> cases e

/-! ### The bounds check -/

/-- No address of an access lies outside memory exactly when it is empty or ends inside. -/
theorem firstOutside_none {a n : Nat} (h : n = 0 ∨ a + n ≤ memSize) : firstOutside a n = none := by
  simp only [firstOutside, List.find?_eq_none, List.mem_map, List.mem_range]
  rintro b ⟨k, hk, rfl⟩
  simp
  omega

/-- The first address outside memory of an access that leaves it. -/
theorem firstOutside_some {a n : Nat} (hn : n ≠ 0) (h : memSize < a + n) : firstOutside a n = some (max a memSize) := by
  induction n generalizing a with
  | zero => exact absurd rfl hn
  | succ n ih =>
    have shift : firstOutside a (n + 1) = if memSize ≤ a then some a else firstOutside (a + 1) n := by
      simp only [firstOutside, List.range_succ_eq_map, List.map_cons, List.map_map, List.find?_cons, Nat.add_zero]
      by_cases ha : memSize ≤ a
      · simp [ha]
      · simp only [ha, decide_false, if_false]
        congr 1
        refine List.map_congr_left fun k _ => ?_
        simp only [Function.comp_apply]
        omega
    rw [shift]
    by_cases ha : memSize ≤ a
    · rw [if_pos ha, max_eq_left ha]
    · rw [if_neg ha]
      have hn0 : n ≠ 0 := by rintro rfl; omega
      rw [ih hn0 (by omega)]
      congr 1
      omega

theorem checkAccess_ok {a n : Nat} (h : n = 0 ∨ a + n ≤ memSize) (body : Result) : checkAccess a n body = body := by
  rw [checkAccess, firstOutside_none h]

theorem checkAccess_fault {a n : Nat} (hn : n ≠ 0) (h : memSize < a + n) (body : Result) :
    checkAccess a n body = .fault (.memoryBounds (max a memSize)) := by
  rw [checkAccess, firstOutside_some hn h]

/-- Everything a checked access can do. -/
theorem checkAccess_cases (a n : Nat) (body : Result) :
    (n = 0 ∨ a + n ≤ memSize) ∧ checkAccess a n body = body ∨
      n ≠ 0 ∧ memSize < a + n ∧ checkAccess a n body = .fault (.memoryBounds (max a memSize)) := by
  by_cases h : n = 0 ∨ a + n ≤ memSize
  · exact .inl ⟨h, checkAccess_ok h body⟩
  · have hn : n ≠ 0 := fun e => h (.inl e)
    have ha : memSize < a + n := by omega
    exact .inr ⟨hn, ha, checkAccess_fault hn ha body⟩

/-! ### Stack -/

theorem State.push_full {s : State} (h : s.sp.val = 16) (a : Word) : s.push a = none := by
  rw [State.push, dif_neg (by omega)]

/-- A push that succeeds. -/
theorem State.push_some {s : State} (h : s.sp.val < 16) (a : Word) :
    s.push a = some { s with stack := s.stack.set s.sp.val a h, sp := ⟨s.sp.val + 1, by omega⟩ } := dif_pos h

theorem State.pop_empty {s : State} (h : s.sp.val = 0) : s.pop = none := by
  rw [State.pop, dif_neg (by omega)]

/-- A pop that succeeds. -/
theorem State.pop_some {s : State} (h : 0 < s.sp.val) :
    s.pop = some (s.stack[s.sp.val - 1]'(by omega), { s with sp := ⟨s.sp.val - 1, by omega⟩ }) := dif_pos h

/-! ### Operands -/

theorem digitOf_some {b : Byte} (h : b.toNat < 16) : digitOf b = some ⟨b.toNat, h⟩ := dif_pos h

theorem digitOf_none {b : Byte} (h : ¬b.toNat < 16) : digitOf b = none := dif_neg h

@[simp] theorem State.length_regBytes (s : State) (x : Reg) : (s.regBytes x).length = x.val + 1 := by
  simp [State.regBytes]

theorem State.getElem_regBytes (s : State) (x : Reg) (j : Nat) (h : j < (s.regBytes x).length) :
    (s.regBytes x)[j] = s.getV ⟨j, by rw [State.length_regBytes] at h; omega⟩ := by
  simp [State.regBytes, State.getV]

@[simp] theorem length_bcdBytes (h : Byte) : (bcdBytes h).length = 3 := rfl

/-- The canonical form after a checked store. -/
theorem State.wf_storeBytes {s : State} (h : s.MemWf) {a : Nat} {bs : List Byte}
    (ha : a + bs.length ≤ memSize) : (s.storeBytes a bs).MemWf := Memory.wf_writeBytes h ha

/-- Memory is in canonical form after a fault is recorded, whatever it then holds. -/
theorem State.wf_recordFault (s : State) (f : Fault) : (s.recordFault f).MemWf := by
  show Memory.wf s.image (s.recordFault f).mem
  rw [State.recordFault]
  dsimp only
  generalize afterFaultMem s.draws = g
  exact Memory.wf_ofBytes g

/-! ### One pixel -/

theorem Display.cell_flip (d : Display) {c r : Nat} (hc : c < 64) (hr : r < 32) (c' r' : Nat) :
    Display.cell (Display.flip d c r) c' r' =
      if c' = c ∧ r' = r then !Display.cell d c r else Display.cell d c' r' := by
  unfold Display.flip
  rw [dif_pos hr, dif_pos hc]
  unfold Display.cell
  by_cases h1 : r' < 32
  · by_cases h2 : c' < 64
    · simp only [h1, h2, hr, hc, dif_pos, Vector.getElem_set]
      by_cases e1 : r = r'
      · subst e1
        by_cases e2 : c = c'
        · subst e2; simp
        · simp [e2, Ne.symm e2]
      · simp [e1, Ne.symm e1]
    · rw [dif_pos h1, dif_neg h2, dif_pos h1, dif_neg h2, if_neg (by omega)]
  · rw [dif_neg h1, dif_neg h1, if_neg (by omega)]

/-- Everything one pixel of the blit does: nothing, or its cell is turned over and joins the collision bit. -/
theorem xorPixel_cases (c r : Nat) (bit : Bool) (p : Display × Bool) :
    (bit = false ∨ 64 ≤ c) ∧ xorPixel c r bit p = p ∨
      bit = true ∧ c < 64 ∧ xorPixel c r bit p = (Display.flip p.1 c r, p.2 || Display.cell p.1 c r) := by
  unfold xorPixel
  cases bit with
  | false => exact .inl ⟨.inl rfl, rfl⟩
  | true =>
    by_cases h : dispWidth ≤ c
    · exact .inl ⟨.inr h, by simp [h]⟩
    · exact .inr ⟨rfl, by unfold dispWidth at h; omega, by simp [h]⟩

@[simp] theorem Display.cell_clear (c r : Nat) : Display.cell Display.clear c r = false := by
  unfold Display.cell Display.clear
  split <;> [split; skip] <;> simp

/-- Two displays that agree on every cell are equal. -/
theorem Display.ext_cell {d e : Display} (h : ∀ c r, c < 64 → r < 32 → Display.cell d c r = Display.cell e c r) : d = e := by
  apply Vector.ext
  intro r hr
  apply Vector.ext
  intro c hc
  have := h c r hc hr
  simpa [Display.cell, hr, hc] using this

/-! ### Steps -/

theorem fetch_fault {s : State} (h : memSize ≤ s.pc.toNat + 1) : fetch s = .error (.fetchError s.pc) := if_pos h

theorem fetch_ok {s : State} (h : s.pc.toNat + 1 < memSize) :
    fetch s = .ok (bigEndian (s.byteAt s.pc.toNat) (s.byteAt (s.pc.toNat + 1))) := if_neg (by omega)

/-- A step that runs an instruction, once its word is known. -/
theorem executorStep_running {s : State} (hf : s.fault = none) (hh : s.hook = .none) :
    executorStep s = runInstruction s := by
  simp [executorStep, hf, hh]

/-- A step that services a pending hook. -/
theorem executorStep_waiting {s : State} {x : Reg} (hf : s.fault = none) (hh : s.hook = .waitKey x) :
    executorStep s = .next (serviceHook x s) := by
  simp [executorStep, hf, hh]

/-- Everything a step of the executor can come from when it answers a next state. -/
theorem executorStep_cases {s t : State} (e : executorStep s = .next t) :
    s.fault = none ∧
      ((∃ x, s.hook = .waitKey x ∧ t = serviceHook x s) ∨
        s.hook = .none ∧ s.pc.toNat + 1 < memSize ∧
          ∃ i, decodeWord (bigEndian (s.byteAt s.pc.toNat) (s.byteAt (s.pc.toNat + 1))) = .ok i ∧ exec i s = .next t) := by
  unfold executorStep at e
  cases hf : s.fault with
  | some f => simp [hf] at e
  | none =>
    cases hh : s.hook with
    | waitKey x =>
      simp only [hf, hh] at e
      cases e
      exact ⟨rfl, .inl ⟨x, rfl, rfl⟩⟩
    | none =>
      simp only [hf, hh] at e
      unfold runInstruction at e
      by_cases hp : memSize ≤ s.pc.toNat + 1
      · rw [fetch_fault hp] at e
        cases e
      · rw [fetch_ok (by omega)] at e
        unfold decodeAndExec at e
        cases hd : decodeWord (bigEndian (s.byteAt s.pc.toNat) (s.byteAt (s.pc.toNat + 1))) with
        | error err => simp [hd] at e
        | ok i =>
          simp only [hd] at e
          exact ⟨rfl, .inr ⟨rfl, by omega, i, rfl, e⟩⟩

/-- Everything an event of the machine can come from when it answers a next state. -/
theorem nextEvent_cases {s t : State} (e : nextEvent s = .next t) :
    (s.schedule = [] ∧ executorStep s = .next t) ∨
      ∃ ev rest, s.schedule = ev :: rest ∧ applyEvent ev { s with schedule := rest } = .next t := by
  unfold nextEvent at e
  cases hs : s.schedule with
  | nil => simp only [hs] at e; exact .inl ⟨rfl, e⟩
  | cons ev rest => simp only [hs] at e; exact .inr ⟨ev, rest, rfl, e⟩

end Sys2Proof.Machine
end

