-- ==== Sys2Proof/Laws/Exec.lean ====
section
/-! SUPPORT. Each instruction as one completion of a step (or the check before it), so that no proof unfolds a meaning, and
everything a `RET`, a `CALL` or a checked access can do when it answers a next state. -/

namespace Sys2Proof.Machine

open Config

/-! ### Instructions that always complete -/

theorem exec_cls (s : State) : exec .cls s = complete .next .clear { s with disp := Display.clear } := rfl
theorem exec_jp (nnn : Nnn) (s : State) : exec (.jp nnn) s = complete (.jump nnn.toNat) .none s := rfl
theorem exec_seVxKk (x : Reg) (kk : Byte) (s : State) :
    exec (.seVxKk x kk) s = complete (skipIf (s.getV x = kk)) .none s := rfl
theorem exec_sneVxKk (x : Reg) (kk : Byte) (s : State) :
    exec (.sneVxKk x kk) s = complete (skipIf (s.getV x ≠ kk)) .none s := rfl
theorem exec_seVxVy (x y : Reg) (s : State) :
    exec (.seVxVy x y) s = complete (skipIf (s.getV x = s.getV y)) .none s := rfl
theorem exec_sneVxVy (x y : Reg) (s : State) :
    exec (.sneVxVy x y) s = complete (skipIf (s.getV x ≠ s.getV y)) .none s := rfl
theorem exec_jpV0Nnn (nnn : Nnn) (s : State) :
    exec (.jpV0Nnn nnn) s = complete (.jump ((s.getV 0).toNat + nnn.toNat)) .none s := rfl
theorem exec_ldVxKk (x : Reg) (kk : Byte) (s : State) : exec (.ldVxKk x kk) s = complete .next .none (s.setV x kk) := rfl
theorem exec_addVxKk (x : Reg) (kk : Byte) (s : State) :
    exec (.addVxKk x kk) s = complete .next .none (s.setV x (s.getV x + kk)) := rfl
theorem exec_ldVxVy (x y : Reg) (s : State) : exec (.ldVxVy x y) s = complete .next .none (s.setV x (s.getV y)) := rfl
theorem exec_or (x y : Reg) (s : State) :
    exec (.or x y) s = complete .next .none (s.setV x (s.getV x ||| s.getV y)) := rfl
theorem exec_and (x y : Reg) (s : State) :
    exec (.and x y) s = complete .next .none (s.setV x (s.getV x &&& s.getV y)) := rfl
theorem exec_xor (x y : Reg) (s : State) :
    exec (.xor x y) s = complete .next .none (s.setV x (s.getV x ^^^ s.getV y)) := rfl
theorem exec_addVxVy (x y : Reg) (s : State) :
    exec (.addVxVy x y) s = complete .next .none (s.setResultThenFlag x (addCarry (s.getV x) (s.getV y))) := rfl
theorem exec_sub (x y : Reg) (s : State) :
    exec (.sub x y) s = complete .next .none (s.setResultThenFlag x (subNotBorrow (s.getV x) (s.getV y))) := rfl
theorem exec_shr (x y : Reg) (s : State) :
    exec (.shr x y) s = complete .next .none (s.setResultThenFlag x (shiftRight (s.getV x))) := rfl
theorem exec_subn (x y : Reg) (s : State) :
    exec (.subn x y) s = complete .next .none (s.setResultThenFlag x (subNotBorrow (s.getV y) (s.getV x))) := rfl
theorem exec_shl (x y : Reg) (s : State) :
    exec (.shl x y) s = complete .next .none (s.setResultThenFlag x (shiftLeft (s.getV x))) := rfl
theorem exec_rnd (x : Reg) (kk : Byte) (s : State) :
    exec (.rnd x kk) s = complete .next .none { s.setV x (randomByte s.draws &&& kk) with draws := s.draws + 1 } := rfl
theorem exec_ldINnn (nnn : Nnn) (s : State) : exec (.ldINnn nnn) s = complete .next .none { s with i := zext16 nnn } := rfl
theorem exec_addIVx (x : Reg) (s : State) :
    exec (.addIVx x) s = complete .next .none { s with i := s.i + (s.getV x).setWidth 16 } := rfl
theorem exec_ldVxDt (x : Reg) (s : State) : exec (.ldVxDt x) s = complete .next .none (s.setV x s.dt) := rfl
theorem exec_ldDtVx (x : Reg) (s : State) : exec (.ldDtVx x) s = complete .next .none { s with dt := s.getV x } := rfl
theorem exec_ldStVx (x : Reg) (s : State) :
    exec (.ldStVx x) s = complete .next (if s.getV x = 0 then .none else .sound) { s with st := s.getV x } := rfl
theorem exec_ldVxK (x : Reg) (s : State) :
    exec (.ldVxK x) s = complete .stay .wait
      { s with hook := .waitKey x, lastEdge := if s.params.acceptsStaleEdge then s.lastEdge else none } := rfl

/-! ### Instructions that check something first -/

theorem exec_ldBVx (x : Reg) (s : State) : exec (.ldBVx x) s =
    checkAccess s.i.toNat 3 (complete .next .none (s.storeBytes s.i.toNat (bcdBytes (s.getV x)))) := rfl
theorem exec_ldMemVx (x : Reg) (s : State) : exec (.ldMemVx x) s =
    checkAccess s.i.toNat (x.val + 1) (complete .next .none (s.storeBytes s.i.toNat (s.regBytes x))) := rfl
theorem exec_ldVxMem (x : Reg) (s : State) : exec (.ldVxMem x) s =
    checkAccess s.i.toNat (x.val + 1) (complete .next .none (s.loadRegs s.i.toNat x)) := rfl
theorem exec_drw (x y : Reg) (n : Nat) (s : State) : exec (.drw x y n) s =
    checkAccess s.i.toNat n (complete .next .draw
      { s.setV vf (flagByte (s.blit x y n).2) with disp := (s.blit x y n).1 }) := rfl

theorem exec_ldFVx {x : Reg} {s : State} (h : (s.getV x).toNat < 16) :
    exec (.ldFVx x) s = complete .next .none { s with i := BitVec.ofNat 16 (s.params.fontBase.val + 5 * (s.getV x).toNat) } := by
  simp only [exec, execLdFVx, digitOf_some h]

theorem exec_ldFVx_fault {x : Reg} {s : State} (h : ¬(s.getV x).toNat < 16) :
    exec (.ldFVx x) s = .fault (.fontIndexOutOfRange (s.getV x)) := by
  simp only [exec, execLdFVx, digitOf_none h]

theorem exec_skp {x : Reg} {s : State} (h : (s.getV x).toNat < 16) :
    exec (.skp x) s = complete (skipIf (s.key ⟨(s.getV x).toNat, h⟩)) .none s := by
  simp only [exec, execSkp, digitOf_some h]

theorem exec_skp_fault {x : Reg} {s : State} (h : ¬(s.getV x).toNat < 16) :
    exec (.skp x) s = .fault (.keyIndexOutOfRange (s.getV x)) := by
  simp only [exec, execSkp, digitOf_none h]

theorem exec_sknp {x : Reg} {s : State} (h : (s.getV x).toNat < 16) :
    exec (.sknp x) s = complete (skipIf (!s.key ⟨(s.getV x).toNat, h⟩)) .none s := by
  simp only [exec, execSknp, digitOf_some h]

theorem exec_sknp_fault {x : Reg} {s : State} (h : ¬(s.getV x).toNat < 16) :
    exec (.sknp x) s = .fault (.keyIndexOutOfRange (s.getV x)) := by
  simp only [exec, execSknp, digitOf_none h]

theorem exec_ret {s : State} (h : 0 < s.sp.val) :
    exec .ret s = complete (.jump (s.stack[s.sp.val - 1]'(by omega)).toNat) .none
      { s with sp := ⟨s.sp.val - 1, by omega⟩ } := by
  simp only [exec, execRet, State.pop_some h]

theorem exec_ret_fault {s : State} (h : s.sp.val = 0) : exec .ret s = .fault .stackUnderflow := by
  simp only [exec, execRet, State.pop_empty h]

theorem exec_call {nnn : Nnn} {s : State} (h : s.sp.val < 16) :
    exec (.call nnn) s = complete (.jump nnn.toNat) .none
      { s with stack := s.stack.set s.sp.val (s.pc + 2) h, sp := ⟨s.sp.val + 1, by omega⟩ } := by
  simp only [exec, execCall, State.push_some h, addressOf]

theorem exec_call_fault {nnn : Nnn} {s : State} (h : s.sp.val = 16) : exec (.call nnn) s = .fault .stackOverflow := by
  simp only [exec, execCall, State.push_full h]

/-! ### Inversions -/

/-- A checked access answers a next state only inside memory, and then what its body answers. -/
theorem checkAccess_next {a n : Nat} {body : Result} {t : State} (e : checkAccess a n body = .next t) :
    (n = 0 ∨ a + n ≤ memSize) ∧ body = .next t := by
  rcases checkAccess_cases a n body with ⟨h, e'⟩ | ⟨-, -, e'⟩ <;> rw [e'] at e
  · exact ⟨h, e⟩
  · cases e

/-- The directive of a skip is `Next` or `Skip`. -/
theorem skipIf_cases (c : Bool) : skipIf c = .skip ∨ skipIf c = .next := by cases c <;> simp [skipIf]

/-- A completed step faults only on a jump out of the program area. -/
theorem complete_fault {dir : Directive} {h : Hint} {s : State} {f : Fault} (e : complete dir h s = .fault f) :
    ∃ a, dir = .jump a ∧ f = .jumpOutOfBounds a ∧ ¬(0x200 ≤ a ∧ a < 0x1000) := by
  cases dir with
  | next | skip | stay => cases e
  | jump a =>
    by_cases ha : 0x200 ≤ a ∧ a < 0x1000
    · rw [complete_jump h s ha] at e; cases e
    · rw [complete_jump_fault h s ha] at e; cases e; exact ⟨a, rfl, rfl, ha⟩

/-- Everything a `RET` can do when it answers a next state. -/
theorem exec_ret_next {s t : State} (e : exec .ret s = .next t) :
    ∃ h : 0 < s.sp.val, ∃ pc : Word, pc = s.stack[s.sp.val - 1]'(by omega) ∧ 0x200 ≤ pc.toNat ∧ pc.toNat < 0x1000
      ∧ t = { s with sp := ⟨s.sp.val - 1, by omega⟩, pc := pc, hint := .none } := by
  by_cases h : 0 < s.sp.val
  · rw [exec_ret h] at e
    by_cases ha : 0x200 ≤ (s.stack[s.sp.val - 1]'(by omega)).toNat ∧ (s.stack[s.sp.val - 1]'(by omega)).toNat < 0x1000
    · rw [complete_jump _ _ ha] at e
      cases e
      exact ⟨h, _, by simp, by simpa using ha.1, by simpa using ha.2, rfl⟩
    · rw [complete_jump_fault _ _ ha] at e
      cases e
  · rw [exec_ret_fault (by omega)] at e
    cases e

/-- Everything a `CALL` can do when it answers a next state. -/
theorem exec_call_next {nnn : Nnn} {s t : State} (e : exec (.call nnn) s = .next t) :
    ∃ h : s.sp.val < 16, ∃ pc : Word, pc.toNat = nnn.toNat ∧ 0x200 ≤ nnn.toNat
      ∧ t = { s with
          stack := s.stack.set s.sp.val (s.pc + 2) h
          sp := ⟨s.sp.val + 1, by omega⟩
          pc := pc
          hint := .none } := by
  by_cases h : s.sp.val < 16
  · rw [exec_call h] at e
    by_cases ha : 0x200 ≤ nnn.toNat ∧ nnn.toNat < 0x1000
    · rw [complete_jump _ _ ha] at e
      cases e
      refine ⟨h, _, ?_, ha.1, rfl⟩
      rw [BitVec.toNat_ofNat]
      omega
    · rw [complete_jump_fault _ _ ha] at e
      cases e
  · rw [exec_call_fault (by omega)] at e
    cases e

end Sys2Proof.Machine
end

