-- ==== Sys2Proof/Laws/PerInstr.lean ====
section
/-! SUPPORT. Family `EncodingRow`: the word the encoder writes for a well-formed instruction lies in that instruction's row of the
opcode map (30_encoding.md R94), one lemma per constructor. -/

namespace Sys2Proof.Laws

/-- A packed word of a row whose fixed bits are its top nibble (formats ADDR, XKK, XYN). -/
theorem top_accepts {w : Word} {t : Nat} (h : w.toNat / 4096 = t) (ht : t < 16) :
    OpcodeRow.accepts ⟨0xF000, BitVec.ofNat 16 (t * 4096)⟩ w = true := by
  have e : w &&& 0xF000#16 = BitVec.ofNat 16 (t * 4096) := by
    apply BitVec.eq_of_toNat_eq
    rw [and_F000, fieldT_eq, h, BitVec.toNat_ofNat]
    omega
  exact decide_eq_true e

/-- A packed word of a row whose fixed bits are its top and bottom nibbles (format XYF). -/
theorem nibbles_accepts {t c : Nat} (ht : t < 16) (hc : c < 16) (x y : Reg) :
    OpcodeRow.accepts ⟨0xF00F, BitVec.ofNat 16 (t * 4096 + c)⟩ (packNibbles t x.val y.val c) = true := by
  have e : packNibbles t x.val y.val c &&& 0xF00F#16 = BitVec.ofNat 16 (t * 4096 + c) := by
    apply BitVec.eq_of_toNat_eq
    rw [and_F00F, fieldT_eq, fieldN_eq, packNibbles_toNat ht x.isLt y.isLt hc, BitVec.toNat_ofNat]
    omega
  exact decide_eq_true e

/-- A packed word of a row whose fixed bits are its top nibble and low byte (format XF). -/
theorem lowByte_accepts {t : Nat} (ht : t < 16) (x : Reg) (kk : Byte) :
    OpcodeRow.accepts ⟨0xF0FF, BitVec.ofNat 16 (t * 4096 + kk.toNat)⟩ (packXKk t x kk) = true := by
  have hkk := kk.isLt
  have e : packXKk t x kk &&& 0xF0FF#16 = BitVec.ofNat 16 (t * 4096 + kk.toNat) := by
    apply BitVec.eq_of_toNat_eq
    rw [and_F0FF, fieldT_eq, fieldKk_toNat, packXKk_toNat ht, BitVec.toNat_ofNat]
    omega
  exact decide_eq_true e

theorem packXKk_top {t : Nat} (ht : t < 16) (x : Reg) (kk : Byte) : (packXKk t x kk).toNat / 4096 = t := by
  have hkk := kk.isLt
  rw [packXKk_toNat ht]
  omega

theorem packNnn_top {t : Nat} (ht : t < 16) (nnn : Nnn) : (packNnn t nnn).toNat / 4096 = t := by
  have hn := nnn.isLt
  rw [packNnn_toNat ht]
  omega

/-- The statement of the family. -/
def EncodingRow.Statement (i : Instr) : Prop := i.WellFormed → (opcodeRow i).accepts (encode i) = true

namespace EncodingRow

theorem cls : Statement (.cls) :=
  fun _ => by decide

theorem ret : Statement (.ret) :=
  fun _ => by decide

theorem jp (nnn : Nnn) : Statement (.jp nnn) :=
  fun _ => top_accepts (t := 0x1) (packNnn_top (by decide) nnn) (by decide)

theorem call (nnn : Nnn) : Statement (.call nnn) :=
  fun _ => top_accepts (t := 0x2) (packNnn_top (by decide) nnn) (by decide)

theorem seVxKk (x : Reg) (kk : Byte) : Statement (.seVxKk x kk) :=
  fun _ => top_accepts (t := 0x3) (packXKk_top (by decide) x kk) (by decide)

theorem sneVxKk (x : Reg) (kk : Byte) : Statement (.sneVxKk x kk) :=
  fun _ => top_accepts (t := 0x4) (packXKk_top (by decide) x kk) (by decide)

theorem seVxVy (x y : Reg) : Statement (.seVxVy x y) :=
  fun _ => nibbles_accepts (t := 0x5) (c := 0x0) (by decide) (by decide) x y

theorem ldVxKk (x : Reg) (kk : Byte) : Statement (.ldVxKk x kk) :=
  fun _ => top_accepts (t := 0x6) (packXKk_top (by decide) x kk) (by decide)

theorem addVxKk (x : Reg) (kk : Byte) : Statement (.addVxKk x kk) :=
  fun _ => top_accepts (t := 0x7) (packXKk_top (by decide) x kk) (by decide)

theorem ldVxVy (x y : Reg) : Statement (.ldVxVy x y) :=
  fun _ => nibbles_accepts (t := 0x8) (c := 0x0) (by decide) (by decide) x y

theorem or (x y : Reg) : Statement (.or x y) :=
  fun _ => nibbles_accepts (t := 0x8) (c := 0x1) (by decide) (by decide) x y

theorem and (x y : Reg) : Statement (.and x y) :=
  fun _ => nibbles_accepts (t := 0x8) (c := 0x2) (by decide) (by decide) x y

theorem xor (x y : Reg) : Statement (.xor x y) :=
  fun _ => nibbles_accepts (t := 0x8) (c := 0x3) (by decide) (by decide) x y

theorem addVxVy (x y : Reg) : Statement (.addVxVy x y) :=
  fun _ => nibbles_accepts (t := 0x8) (c := 0x4) (by decide) (by decide) x y

theorem sub (x y : Reg) : Statement (.sub x y) :=
  fun _ => nibbles_accepts (t := 0x8) (c := 0x5) (by decide) (by decide) x y

theorem shr (x y : Reg) : Statement (.shr x y) :=
  fun _ => nibbles_accepts (t := 0x8) (c := 0x6) (by decide) (by decide) x y

theorem subn (x y : Reg) : Statement (.subn x y) :=
  fun _ => nibbles_accepts (t := 0x8) (c := 0x7) (by decide) (by decide) x y

theorem shl (x y : Reg) : Statement (.shl x y) :=
  fun _ => nibbles_accepts (t := 0x8) (c := 0xE) (by decide) (by decide) x y

theorem sneVxVy (x y : Reg) : Statement (.sneVxVy x y) :=
  fun _ => nibbles_accepts (t := 0x9) (c := 0x0) (by decide) (by decide) x y

theorem ldINnn (nnn : Nnn) : Statement (.ldINnn nnn) :=
  fun _ => top_accepts (t := 0xA) (packNnn_top (by decide) nnn) (by decide)

theorem jpV0Nnn (nnn : Nnn) : Statement (.jpV0Nnn nnn) :=
  fun _ => top_accepts (t := 0xB) (packNnn_top (by decide) nnn) (by decide)

theorem rnd (x : Reg) (kk : Byte) : Statement (.rnd x kk) :=
  fun _ => top_accepts (t := 0xC) (packXKk_top (by decide) x kk) (by decide)

theorem drw (x y : Reg) (n : Nat) : Statement (.drw x y n) :=
  fun h => top_accepts (t := 0xD) (by
    have hn : n < 16 := of_decide_eq_true h
    rw [encode, packNibbles_toNat (by decide) x.isLt y.isLt hn]
    omega) (by decide)

theorem skp (x : Reg) : Statement (.skp x) :=
  fun _ => lowByte_accepts (t := 0xE) (by decide) x 0x9E

theorem sknp (x : Reg) : Statement (.sknp x) :=
  fun _ => lowByte_accepts (t := 0xE) (by decide) x 0xA1

theorem ldVxDt (x : Reg) : Statement (.ldVxDt x) :=
  fun _ => lowByte_accepts (t := 0xF) (by decide) x 0x07

theorem ldVxK (x : Reg) : Statement (.ldVxK x) :=
  fun _ => lowByte_accepts (t := 0xF) (by decide) x 0x0A

theorem ldDtVx (x : Reg) : Statement (.ldDtVx x) :=
  fun _ => lowByte_accepts (t := 0xF) (by decide) x 0x15

theorem ldStVx (x : Reg) : Statement (.ldStVx x) :=
  fun _ => lowByte_accepts (t := 0xF) (by decide) x 0x18

theorem addIVx (x : Reg) : Statement (.addIVx x) :=
  fun _ => lowByte_accepts (t := 0xF) (by decide) x 0x1E

theorem ldFVx (x : Reg) : Statement (.ldFVx x) :=
  fun _ => lowByte_accepts (t := 0xF) (by decide) x 0x29

theorem ldBVx (x : Reg) : Statement (.ldBVx x) :=
  fun _ => lowByte_accepts (t := 0xF) (by decide) x 0x33

theorem ldMemVx (x : Reg) : Statement (.ldMemVx x) :=
  fun _ => lowByte_accepts (t := 0xF) (by decide) x 0x55

theorem ldVxMem (x : Reg) : Statement (.ldVxMem x) :=
  fun _ => lowByte_accepts (t := 0xF) (by decide) x 0x65

end EncodingRow

end Sys2Proof.Laws
end

