-- ==== Sys2Proof/Laws/Runs.lean ====
section
/-! SUPPORT. What a scheduled call of `step()` leaves, and what the model's field `schedule` has no part in. -/

namespace Sys2Proof.Machine

open Config

/-! ### Sequencing outcomes -/

@[simp] theorem mapNext_next (f : State → State) (t : State) : mapNext f (.next t) = .next (f t) := rfl
@[simp] theorem mapNext_fault (f : State → State) (e : Fault) : mapNext f (.fault e) = .fault e := rfl
@[simp] theorem mapNext_refused (f : State → State) (r : Refusal) : mapNext f (.refused r) = .refused r := rfl
@[simp] theorem andThen_next (t : State) (k : State → Result) : andThen (.next t) k = k t := rfl
@[simp] theorem andThen_fault (f : Fault) (k : State → Result) : andThen (.fault f) k = .fault f := rfl
@[simp] theorem andThen_refused (r : Refusal) (k : State → Result) : andThen (.refused r) k = .refused r := rfl

/-! ### A fault -/

theorem State.afterFault_halted {s : State} {f : Fault} (h : s.fault = some f) (g : Fault) : s.afterFault g = s := by
  simp [State.afterFault, h]

theorem State.afterFault_running {s : State} (h : s.fault = none) (f : Fault) : s.afterFault f = s.recordFault f := by
  simp [State.afterFault, h]

/-- The executor's step of a halted machine. -/
theorem executorStep_halted {s : State} {f : Fault} (h : s.fault = some f) : executorStep s = .fault f := by
  simp [executorStep, h]

/-- A scheduled call of `step()` that raises a fault leaves the halted machine. -/
theorem stepEvent_fault {s : State} {f : Fault} (hs : s.fault = none) (h : executorStep s = .fault f) :
    stepEvent s = .next (s.recordFault f) := by
  simp [stepEvent, h, State.afterFault_running hs]

/-- A scheduled call of `step()` on a halted machine changes nothing. -/
theorem stepEvent_halted {s : State} {f : Fault} (h : s.fault = some f) : stepEvent s = .next s := by
  simp [stepEvent, executorStep_halted h, State.afterFault_halted h]

/-! ### The schedule has no part in what an event does -/

theorem complete_schedule (dir : Directive) (h : Hint) (s : State) (es : List Event) :
    complete dir h { s with schedule := es } = mapNext (fun t => { t with schedule := es }) (complete dir h s) := by
  cases dir with
  | next | skip | stay => rfl
  | jump a =>
    by_cases ha : 0x200 ≤ a ∧ a < 0x1000
    · rw [complete_jump _ _ ha, complete_jump _ _ ha]; rfl
    · rw [complete_jump_fault _ _ ha, complete_jump_fault _ _ ha]; rfl

theorem checkAccess_mapNext (a n : Nat) (f : State → State) (body : Result) :
    checkAccess a n (mapNext f body) = mapNext f (checkAccess a n body) := by
  unfold checkAccess
  cases firstOutside a n <;> rfl

/-- What an instruction does depends on the schedule in no way, and leaves it as it is. -/
theorem exec_schedule (i : Instr) (s : State) (es : List Event) :
    exec i { s with schedule := es } = mapNext (fun t => { t with schedule := es }) (exec i s) := by
  cases i with
  | ret =>
    by_cases h : 0 < s.sp.val
    · rw [exec_ret h, ← complete_schedule]
      exact exec_ret (s := { s with schedule := es }) h
    · rw [exec_ret_fault (s := s) (by omega)]
      exact exec_ret_fault (s := { s with schedule := es }) (show s.sp.val = 0 by omega)
  | call nnn =>
    by_cases h : s.sp.val < 16
    · rw [exec_call h, ← complete_schedule]
      exact exec_call (s := { s with schedule := es }) h
    · rw [exec_call_fault (s := s) (by omega)]
      exact exec_call_fault (s := { s with schedule := es }) (show s.sp.val = 16 by omega)
  | skp x =>
    by_cases h : (s.getV x).toNat < 16
    · rw [exec_skp h, ← complete_schedule]
      exact exec_skp (s := { s with schedule := es }) h
    · rw [exec_skp_fault h]
      exact exec_skp_fault (s := { s with schedule := es }) h
  | sknp x =>
    by_cases h : (s.getV x).toNat < 16
    · rw [exec_sknp h, ← complete_schedule]
      exact exec_sknp (s := { s with schedule := es }) h
    · rw [exec_sknp_fault h]
      exact exec_sknp_fault (s := { s with schedule := es }) h
  | ldFVx x =>
    by_cases h : (s.getV x).toNat < 16
    · rw [exec_ldFVx h, ← complete_schedule]
      exact exec_ldFVx (s := { s with schedule := es }) h
    · rw [exec_ldFVx_fault h]
      exact exec_ldFVx_fault (s := { s with schedule := es }) h
  | ldBVx x => rw [exec_ldBVx, exec_ldBVx, ← checkAccess_mapNext, ← complete_schedule]; rfl
  | ldMemVx x => rw [exec_ldMemVx, exec_ldMemVx, ← checkAccess_mapNext, ← complete_schedule]; rfl
  | ldVxMem x => rw [exec_ldVxMem, exec_ldVxMem, ← checkAccess_mapNext, ← complete_schedule]; rfl
  | drw x y n => rw [exec_drw, exec_drw, ← checkAccess_mapNext, ← complete_schedule]; rfl
  | _ =>
    simp only [exec_cls, exec_jp, exec_seVxKk, exec_sneVxKk, exec_seVxVy, exec_sneVxVy, exec_jpV0Nnn, exec_ldVxKk, exec_addVxKk,
      exec_ldVxVy, exec_or, exec_and, exec_xor, exec_addVxVy, exec_sub, exec_shr, exec_subn, exec_shl, exec_rnd, exec_ldINnn,
      exec_addIVx, exec_ldVxDt, exec_ldDtVx, exec_ldStVx, exec_ldVxK, ← complete_schedule] <;> rfl

theorem serviceHook_schedule (x : Reg) (s : State) (es : List Event) :
    serviceHook x { s with schedule := es } = { serviceHook x s with schedule := es } := by
  unfold serviceHook
  rw [show latchedPress { s with schedule := es } = latchedPress s from rfl]
  split <;> rfl

/-- The executor's step depends on the schedule in no way, and leaves it as it is. -/
theorem executorStep_schedule (s : State) (es : List Event) :
    executorStep { s with schedule := es } = mapNext (fun t => { t with schedule := es }) (executorStep s) := by
  have hook : s.hook = .none ∨ ∃ x, s.hook = .waitKey x := by cases s.hook <;> simp
  obtain hf | ⟨f, hf⟩ := Option.eq_none_or_eq_some s.fault
  · obtain hh | ⟨x, hh⟩ := hook
    · rw [executorStep_running hf hh, executorStep_running (s := { s with schedule := es }) hf hh, runInstruction,
        show fetch { s with schedule := es } = fetch s from rfl, runInstruction]
      cases fetch s with
      | error f => rfl
      | ok w =>
        simp only [decodeAndExec]
        cases decodeWord w with
        | error e => rfl
        | ok i => exact exec_schedule i s es
    · rw [executorStep_waiting hf hh, executorStep_waiting (s := { s with schedule := es }) hf hh, serviceHook_schedule]
      rfl
  · rw [executorStep_halted hf, executorStep_halted (s := { s with schedule := es }) hf]
    rfl

theorem State.recordFault_of_schedule (s : State) (f : Fault) (es : List Event) :
    State.recordFault { s with schedule := es } f = { s.recordFault f with schedule := es } := by
  simp only [State.recordFault, State.image_eq]

theorem State.afterFault_schedule (s : State) (f : Fault) (es : List Event) :
    State.afterFault { s with schedule := es } f = { s.afterFault f with schedule := es } := by
  unfold State.afterFault
  dsimp only
  split
  · rfl
  · exact State.recordFault_of_schedule s f es

/-- No event depends on the schedule, and none changes it but by being taken from it. -/
theorem applyEvent_schedule (e : Event) (s : State) (es : List Event) :
    applyEvent e { s with schedule := es } = mapNext (fun t => { t with schedule := es }) (applyEvent e s) := by
  cases e with
  | step =>
    show stepEvent _ = mapNext _ (stepEvent s)
    unfold stepEvent
    rw [executorStep_schedule]
    cases executorStep s with
    | next t => rfl
    | refused r => rfl
    | fault f => simp only [mapNext_fault, mapNext_next, State.afterFault_schedule]
  | tickDT | tickST => rfl
  | setKey i v => simp only [applyEvent, setKey, mapNext_next]; split <;> rfl
  | toggleKey i => simp only [applyEvent, toggleKey, mapNext_next]; split <;> rfl
  | setAll bits => rfl

end Sys2Proof.Machine
end

