-- ==== Sys2Proof/Tests/Slice0.lean ====
section
/-! SUPPORT. The model's own tests. Words are written out from the patterns of 30_encoding.md R94; expected results are the spec's
own vectors (95_test_vectors.md: E, CF, A, M, DS, T, K, X, S). Then one witness for every statement that has hypotheses. -/

namespace Sys2Proof.Tests

open Sys2Proof Sys2Proof.Machine

set_option maxRecDepth 20000

/-! ### Well-formedness -/

/-- `DRW` has a 4-bit row count (R92): sixteen rows are refused, fifteen are not. -/
theorem test_wellFormed_refuses_sixteen_rows : Instr.wellFormed (.drw 0 0 16) = false := by decide
theorem test_rowCountFits_bounds : rowCountFits 16 = false ∧ rowCountFits 15 = true := by decide
theorem test_wellFormed_accepts_fifteen_rows : (Instr.drw 0 0 15).WellFormed := by decide

/-! ### Decoding -/

/-- `t` = 0 to 4 (E1, E2, E6 to E9). -/
theorem test_decode_control :
    decodeWord 0x00E0 = .ok .cls ∧ decodeWord 0x00EE = .ok .ret ∧ decodeWord 0x1ABC = .ok (.jp 0xABC)
    ∧ decodeWord 0x2FFF = .ok (.call 0xFFF) ∧ decodeWord 0x3A5B = .ok (.seVxKk 0xA 0x5B)
    ∧ decodeWord 0x4000 = .ok (.sneVxKk 0 0x00) := by decide

/-- `t` = 5, 6, 7, 9, A to D (E10, E12, E13, E17, E19 to E22). -/
theorem test_decode_fields :
    decodeWord 0x5120 = .ok (.seVxVy 1 2) ∧ decodeWord 0x6FFF = .ok (.ldVxKk 0xF 0xFF)
    ∧ decodeWord 0x7123 = .ok (.addVxKk 1 0x23) ∧ decodeWord 0x9120 = .ok (.sneVxVy 1 2)
    ∧ decodeWord 0xA123 = .ok (.ldINnn 0x123) ∧ decodeWord 0xB200 = .ok (.jpV0Nnn 0x200)
    ∧ decodeWord 0xC0FF = .ok (.rnd 0 0xFF) ∧ decodeWord 0xD000 = .ok (.drw 0 0 0)
    ∧ decodeWord 0xD125 = .ok (.drw 1 2 5) := by decide

/-- `t` = 8 (E14, E16). -/
theorem test_decode_alu :
    decodeWord 0x8AB0 = .ok (.ldVxVy 0xA 0xB) ∧ decodeWord 0x8AB1 = .ok (.or 0xA 0xB)
    ∧ decodeWord 0x8AB2 = .ok (.and 0xA 0xB) ∧ decodeWord 0x8AB3 = .ok (.xor 0xA 0xB)
    ∧ decodeWord 0x8AB4 = .ok (.addVxVy 0xA 0xB) ∧ decodeWord 0x8AB5 = .ok (.sub 0xA 0xB)
    ∧ decodeWord 0x8AB6 = .ok (.shr 0xA 0xB) ∧ decodeWord 0x8AB7 = .ok (.subn 0xA 0xB)
    ∧ decodeWord 0x8ABE = .ok (.shl 0xA 0xB) ∧ decodeWord 0x8016 = .ok (.shr 0 1)
    ∧ decodeWord 0x80F6 = .ok (.shr 0 0xF) := by decide

/-- `t` = E and F (E23, E24, E26, E27). -/
theorem test_decode_key_and_misc :
    decodeWord 0xE19E = .ok (.skp 1) ∧ decodeWord 0xE0A1 = .ok (.sknp 0) ∧ decodeWord 0xF007 = .ok (.ldVxDt 0)
    ∧ decodeWord 0xF00A = .ok (.ldVxK 0) ∧ decodeWord 0xF015 = .ok (.ldDtVx 0) ∧ decodeWord 0xF018 = .ok (.ldStVx 0)
    ∧ decodeWord 0xF01E = .ok (.addIVx 0) ∧ decodeWord 0xF029 = .ok (.ldFVx 0) ∧ decodeWord 0xF033 = .ok (.ldBVx 0)
    ∧ decodeWord 0xF055 = .ok (.ldMemVx 0) ∧ decodeWord 0xF065 = .ok (.ldVxMem 0)
    ∧ decodeWord 0xFF65 = .ok (.ldVxMem 0xF) := by decide

/-- Illegal words carry themselves (E3 to E5, E11, E15, E18, E25, E28). -/
theorem test_decode_refuses_low :
    decodeWord 0x0000 = .error (.illegal 0x0000)
    ∧ decodeWord 0x00E1 = .error (.illegal 0x00E1)
    ∧ decodeWord 0x0123 = .error (.illegal 0x0123)
    ∧ decodeWord 0x5121 = .error (.illegal 0x5121)
    ∧ decodeWord 0x8008 = .error (.illegal 0x8008)
    ∧ decodeWord 0x8009 = .error (.illegal 0x8009)
    ∧ decodeWord 0x800A = .error (.illegal 0x800A) := by decide
theorem test_decode_refuses_high :
    decodeWord 0x800B = .error (.illegal 0x800B)
    ∧ decodeWord 0x800C = .error (.illegal 0x800C)
    ∧ decodeWord 0x800D = .error (.illegal 0x800D)
    ∧ decodeWord 0x800F = .error (.illegal 0x800F)
    ∧ decodeWord 0x912F = .error (.illegal 0x912F)
    ∧ decodeWord 0xE09F = .error (.illegal 0xE09F)
    ∧ decodeWord 0xE0A0 = .error (.illegal 0xE0A0)
    ∧ decodeWord 0xE000 = .error (.illegal 0xE000)
    ∧ decodeWord 0xF000 = .error (.illegal 0xF000)
    ∧ decodeWord 0xF030 = .error (.illegal 0xF030)
    ∧ decodeWord 0xF0FF = .error (.illegal 0xF0FF)
    ∧ decodeWord 0xFFFF = .error (.illegal 0xFFFF) := by decide

/-- The byte at the lower address is the high byte (R64), and the rest of the bytes is handed back; one byte is too short. -/
theorem test_decode_bytes :
    decode [0x1A, 0xBC, 0x77] = .ok (.jp 0xABC, [0x77]) ∧ decode [0x1A] = .error .tooShort := by decide

/-- The table numbers the word itself; a word the table gives a byte has zeros above it. -/
theorem test_decodeTableWord :
    decodeTableWord 16 0xD125 = some (.drw 1 2 5) ∧ decodeTableWord 16 0x5121 = none ∧ decodeTableWord 8 0x1ABC = none := by
  decide

/-- The encoder writes the patterns of R94. -/
theorem test_encode :
    encode (.drw 1 2 5) = 0xD125 ∧ encode (.sub 0xA 0xB) = 0x8AB5 ∧ encode (.ldMemVx 2) = 0xF255
    ∧ encode (.call 0xFFF) = 0x2FFF ∧ encode (.seVxKk 0xA 0x5B) = 0x3A5B := by decide

/-! ### One step on a small state

`at16 w s` is the step that runs the word `w` placed where `s` fetches. -/

/-- Whether the outcome is a next state with a property. -/
def nextHas (r : Result) (p : State → Bool) : Bool :=
  match r with
  | .next t => p t
  | _ => false

/-- Whether the outcome is one fault. -/
def stopsWith (r : Result) (f : Fault) : Bool :=
  match r with
  | .fault g => g = f
  | _ => false

/-- The step of the machine that runs the word `w`. -/
def at16 (w : Nat) (s : State) : Result := step (s.withFetchWord 16 w)

/-- The reset state with two registers set. -/
def regs (x : Reg) (a : Byte) (y : Reg) (b : Byte) : State := (State.reset.setV x a).setV y b

/-- The reset state with `I` and one register set. -/
def index (i : Word) (x : Reg) (a : Byte) : State := { State.reset.setV x a with i := i }

/-- The reset state with an `Fx0A` of `Vx` pending and a latch. -/
def waiting (x : Reg) (e : Option Edge) : State := { State.reset with hook := .waitKey x, lastEdge := e }

/-- The reset state with a recorded fault and a schedule. -/
def halted (es : List Event) : State := { State.reset with fault := some (.fetchError 0x1000), schedule := es }

/-- The reset state with `k` return addresses. -/
def deep (k : Fin 17) (a : Word) : State := { State.reset with sp := k, stack := Vector.replicate 16 a }

/-- DS10, S1. -/
theorem test_cls :
    nextHas (at16 0x00E0 { State.reset with disp := Display.flip Display.clear 63 31 })
      (fun t => !Display.cell t.disp 63 31 && t.hint = .clear && t.pc = 0x202) = true := by decide
/-- CF11, CF12. -/
theorem test_ret : nextHas (at16 0x00EE (deep 1 0x202)) (fun t => t.pc = 0x202 && t.sp = 0) = true := by decide
theorem test_ret_underflow : stopsWith (at16 0x00EE State.reset) .stackUnderflow = true := by decide
/-- CF10: the address pushed by a `CALL` at `0xFFE`. -/
theorem test_ret_out_of_bounds : stopsWith (at16 0x00EE (deep 1 0x1000)) (.jumpOutOfBounds 0x1000) = true := by decide
/-- CF3, CF2. -/
theorem test_jp_odd : nextHas (at16 0x1301 State.reset) (fun t => t.pc = 0x301 && t.hint = .none) = true := by decide
theorem test_jp_low : stopsWith (at16 0x11FF State.reset) (.jumpOutOfBounds 0x1FF) = true := by decide
/-- CF9, CF7. -/
theorem test_call_at_the_top :
    nextHas (at16 0x2300 { State.reset with pc := 0xFFE }) (fun t => t.pc = 0x300 && t.sp = 1 && t.stack[0] = 0x1000) = true := by
  decide
theorem test_call_full_comes_first : stopsWith (at16 0x21FF (deep 16 0x202)) .stackOverflow = true := by decide
/-- CF13, CF14. -/
theorem test_se_byte :
    nextHas (at16 0x3A5B (regs 0xA 0x5B 0 0)) (fun t => t.pc = 0x204) = true
    ∧ nextHas (at16 0x3A5B (regs 0xA 0x5C 0 0)) (fun t => t.pc = 0x202) = true := by decide
/-- CF15, CF16. -/
theorem test_sne_byte :
    nextHas (at16 0x4A5B (regs 0xA 0x5B 0 0)) (fun t => t.pc = 0x202) = true
    ∧ nextHas (at16 0x4A5B State.reset) (fun t => t.pc = 0x204) = true := by decide
/-- CF17, CF18. -/
theorem test_se_register :
    nextHas (at16 0x5120 (regs 1 7 2 7)) (fun t => t.pc = 0x204) = true
    ∧ nextHas (at16 0x5120 (regs 1 7 2 8)) (fun t => t.pc = 0x202) = true := by decide
/-- CF19. -/
theorem test_sne_register : nextHas (at16 0x9120 (regs 1 7 2 8)) (fun t => t.pc = 0x204) = true := by decide
/-- CF21, CF22: a skip over the top of memory succeeds. -/
theorem test_skip_from_the_top :
    nextHas (at16 0x3000 { State.reset with pc := 0xFFC }) (fun t => t.pc = 0x1000) = true
    ∧ nextHas (at16 0x3000 { State.reset with pc := 0xFFE }) (fun t => t.pc = 0x1002) = true := by decide
/-- CF24, CF25. -/
theorem test_jp_v0 : nextHas (at16 0xBEFF (regs 0 0xFF 1 0)) (fun t => t.pc = 0xFFE) = true := by decide
theorem test_jp_v0_does_not_wrap : stopsWith (at16 0xBF01 (regs 0 0xFF 1 0)) (.jumpOutOfBounds 0x1000) = true := by decide

/-- A33. -/
theorem test_ld_byte : nextHas (at16 0x6A42 State.reset) (fun t => t.getV 0xA = 0x42 && t.pc = 0x202) = true := by decide
/-- A31: no carry flag. -/
theorem test_add_byte :
    nextHas (at16 0x70FF (regs 0 1 0xF 0x55)) (fun t => t.getV 0 = 0 && t.getV 0xF = 0x55) = true := by decide
/-- A30. -/
theorem test_ld_register : nextHas (at16 0x8010 (regs 1 0x77 0 0)) (fun t => t.getV 0 = 0x77) = true := by decide
/-- A29: the destination is `VF`. -/
theorem test_or : nextHas (at16 0x8F11 (regs 0xF 0x05 1 0x30)) (fun t => t.getV 0xF = 0x35) = true := by decide
/-- A27, A28. -/
theorem test_and : nextHas (at16 0x8012 (regs 0 0xF0 1 0x3C)) (fun t => t.getV 0 = 0x30 && t.getV 0xF = 0) = true := by decide
theorem test_xor : nextHas (at16 0x8013 (regs 0 0xFF 1 0x0F)) (fun t => t.getV 0 = 0xF0) = true := by decide
/-- A3, A5. -/
theorem test_add : nextHas (at16 0x8014 (regs 0 0xFF 1 0xFF)) (fun t => t.getV 0 = 0xFE && t.getV 0xF = 1) = true := by decide
theorem test_add_into_vf : nextHas (at16 0x8F14 (regs 0xF 0x10 1 0xF5)) (fun t => t.getV 0xF = 1) = true := by decide
/-- A6, A8. -/
theorem test_sub : nextHas (at16 0x8015 (regs 0 5 1 7)) (fun t => t.getV 0 = 0xFE && t.getV 0xF = 0) = true := by decide
theorem test_sub_equal : nextHas (at16 0x8015 (regs 0 5 1 5)) (fun t => t.getV 0 = 0 && t.getV 0xF = 1) = true := by decide
/-- A18 (`y` ignored), A19. -/
theorem test_shr :
    nextHas (at16 0x8016 (regs 0 0x81 1 0)) (fun t => t.getV 0 = 0x40 && t.getV 0xF = 1) = true
    ∧ nextHas (at16 0x80F6 (regs 0 0x81 1 0)) (fun t => t.getV 0 = 0x40 && t.getV 0xF = 1) = true := by decide
theorem test_shr_vf : nextHas (at16 0x8F06 (regs 0xF 2 0 0)) (fun t => t.getV 0xF = 0) = true := by decide
/-- A12, A14. -/
theorem test_subn : nextHas (at16 0x8017 (regs 0 2 1 3)) (fun t => t.getV 0 = 1 && t.getV 0xF = 1) = true := by decide
theorem test_subn_vf : nextHas (at16 0x8F07 (regs 0xF 1 0 0)) (fun t => t.getV 0xF = 0) = true := by decide
/-- A21, A24. -/
theorem test_shl : nextHas (at16 0x801E (regs 0 0x81 1 0)) (fun t => t.getV 0 = 2 && t.getV 0xF = 1) = true := by decide
theorem test_shl_vf : nextHas (at16 0x8F0E (regs 0xF 0x40 0 0)) (fun t => t.getV 0xF = 0) = true := by decide
/-- A35: a byte is still drawn; the value of a draw is free. -/
theorem test_rnd : nextHas (at16 0xC1FF State.reset) (fun t => t.draws = 1 && t.pc = 0x202) = true := by decide
theorem test_rnd_masked_to_zero : ∃ t, exec (.rnd 1 0) State.reset = .next t ∧ t.getV 1 = 0 :=
  ⟨_, rfl, (State.getV_setV_same State.reset 1 _).trans BitVec.and_zero⟩

/-- M1. -/
theorem test_ld_i : nextHas (at16 0xA300 State.reset) (fun t => t.i = 0x300) = true := by decide
/-- M2, M3. -/
theorem test_add_i :
    nextHas (at16 0xF01E (index 0xFFFF 0 1)) (fun t => t.i = 0) = true
    ∧ nextHas (at16 0xF01E (index 0x0FFF 0 1)) (fun t => t.i = 0x1000) = true := by decide
/-- M5, M8. -/
theorem test_ld_font : nextHas (at16 0xF029 (index 0 0 0xF)) (fun t => t.i = 0x04B) = true := by decide
theorem test_ld_font_out_of_range : stopsWith (at16 0xF029 (index 0 0 0x10)) (.fontIndexOutOfRange 0x10) = true := by decide
/-- M10, M15. -/
theorem test_ld_bcd :
    nextHas (at16 0xF033 (index 0x300 0 255))
      (fun t => t.byteAt 0x300 = 2 && t.byteAt 0x301 = 5 && t.byteAt 0x302 = 5 && t.i = 0x300) = true := by decide
theorem test_ld_bcd_bounds : stopsWith (at16 0xF033 (index 0xFFE 0 1)) (.memoryBounds 0x1000) = true := by decide
/-- S4 and M18. -/
theorem test_ld_store :
    nextHas (at16 0xF155 { regs 0 0x11 1 0x22 with i := 0x400 })
      (fun t => t.mem = [(0x200, 0xF1), (0x201, 0x55), (0x400, 0x11), (0x401, 0x22)]) = true := by decide
theorem test_ld_store_bounds : stopsWith (at16 0xF155 (index 0xFFF 0 1)) (.memoryBounds 0x1000) = true := by decide
/-- M20 in small (glyph "0" is F0 90 90 90 F0) and M21. -/
theorem test_ld_load :
    nextHas (at16 0xF165 (regs 2 0x33 0 0)) (fun t => t.getV 0 = 0xF0 && t.getV 1 = 0x90 && t.getV 2 = 0x33) = true := by
  decide
theorem test_ld_load_bounds : stopsWith (at16 0xF265 (index 0xFFE 0 0)) (.memoryBounds 0x1000) = true := by decide

/-- DS3: the start position is kept, columns beyond 63 and rows beyond 31 are clipped. -/
theorem test_drw_clips :
    nextHas (at16 0xD015 (regs 0 60 1 30))
      (fun t => Display.cell t.disp 60 30 && Display.cell t.disp 63 30 && Display.cell t.disp 60 31
        && !Display.cell t.disp 61 31 && Display.cell t.disp 63 31 && !Display.cell t.disp 0 30
        && !Display.cell t.disp 60 0 && t.getV 0xF = 0 && t.hint = .draw) = true := by decide
/-- S6, second draw: the lit cell goes out and `VF` is 1. DS6: `Vx` is read before `VF` is cleared. -/
theorem test_drw_collides :
    nextHas (at16 0xDF11 { regs 0xF 5 1 0 with disp := Display.flip Display.clear 5 0 })
      (fun t => !Display.cell t.disp 5 0 && Display.cell t.disp 6 0 && t.getV 0xF = 1) = true := by decide
/-- DS9: clipped rows are still read. -/
theorem test_drw_bounds :
    stopsWith (at16 0xD01F { regs 0 0 1 31 with i := 0xFF5 }) (.memoryBounds 0x1000) = true := by decide

/-- T5, T6, T8, T9. -/
theorem test_ld_from_dt :
    nextHas (at16 0xF507 { State.reset with dt := 0x3C }) (fun t => t.getV 5 = 0x3C) = true := by decide
theorem test_ld_to_dt : nextHas (at16 0xF115 (regs 1 0x3C 0 0)) (fun t => t.dt = 0x3C && t.hint = .none) = true := by decide
theorem test_ld_to_st : nextHas (at16 0xF218 (regs 2 5 0 0)) (fun t => t.st = 5 && t.hint = .sound && soundOn t) = true := by decide
theorem test_ld_to_st_zero :
    nextHas (at16 0xF218 { State.reset with st := 9 }) (fun t => t.st = 0 && t.hint = .none && !soundOn t) = true := by decide
/-- K13, K17. -/
theorem test_skp :
    nextHas (at16 0xE09E (setKey 5 true (regs 0 5 1 0))) (fun t => t.pc = 0x204) = true
    ∧ stopsWith (at16 0xE09E (regs 0 0x10 1 0)) (.keyIndexOutOfRange 0x10) = true := by decide
/-- K15, K16. -/
theorem test_sknp :
    nextHas (at16 0xE0A1 (regs 0 5 1 0)) (fun t => t.pc = 0x204) = true
    ∧ nextHas (at16 0xE0A1 (setKey 5 true (regs 0 5 1 0))) (fun t => t.pc = 0x202) = true := by decide
/-- K1 and K2, step 1: the stale edge goes. K3, step 1: with the other argument it stays. -/
theorem test_ld_key :
    nextHas (at16 0xF30A (setKey 7 true State.reset))
      (fun t => t.hook = .waitKey 3 && t.pc = 0x200 && t.hint = .wait && t.lastEdge = none) = true := by decide
theorem test_ld_key_stale :
    nextHas (at16 0xF30A (setKey 7 true { State.reset with params := ⟨true, 0, defaultFontRows⟩ }))
      (fun t => t.lastEdge = some ⟨7, false, true⟩) = true := by decide

/-! ### The executor, the tickers and the host -/

/-- K1, step 3; X6. -/
theorem test_hook_completes :
    nextHas (step (waiting 3 (some ⟨7, false, true⟩))) (fun t => t.getV 3 = 7 && t.pc = 0x202 && t.hook = .none) = true := by
  decide
/-- K4: a release does not end the wait. -/
theorem test_hook_waits :
    nextHas (step (waiting 3 (some ⟨7, true, false⟩))) (fun t => t.hook = .waitKey 3 && t.hint = .wait) = true := by decide
/-- X1, X5. -/
theorem test_fetch_fault : stopsWith (step { State.reset with pc := 0xFFF }) (.fetchError 0xFFF) = true := by decide
theorem test_reset_decodes_zero : stopsWith (step State.reset) (.decodeError 0x0000) = true := by decide
/-- X3. -/
theorem test_halted : stopsWith (step (halted [])) (.fetchError 0x1000) = true := by decide
/-- X4, T10: ticks go on. T2: a tick stops at 0. -/
theorem test_tick_after_fault :
    nextHas (step { halted [.tickDT, .step] with dt := 4 }) (fun t => t.dt = 3 && t.schedule = [.step]) = true := by decide
theorem test_tick_at_zero : (tickST State.reset).st = 0 ∧ (tickDT { State.reset with dt := 5, st := 5 }).st = 5 := by decide
/-- K8, K9, K10, K12. -/
theorem test_set_key_releases_the_others :
    (setKey 5 true (setKey 3 true State.reset)).key 3 = false
    ∧ (setKey 5 true (setKey 5 true State.reset)).lastEdge = some ⟨5, true, true⟩
    ∧ (toggleKey 5 (setKey 5 true State.reset)).lastEdge = some ⟨5, true, false⟩ := by decide
theorem test_set_key_out_of_range : setKey 16 true State.reset = State.reset := by decide
/-- K11. -/
theorem test_set_all :
    (setAll (Vector.replicate 16 true) (setKey 3 true State.reset)).lastEdge = none
    ∧ (setAll (Vector.replicate 16 true) State.reset).key 15 = true := by decide
/-- X4 as one schedule: a tick after a step that faults still comes (R71, R252). -/
theorem test_tick_scheduled_after_a_fault :
    ∃ t, runSteps 2 { State.reset with dt := 4, schedule := [.step, .tickDT] } = .next t
      ∧ t.fault = some (.decodeError 0) ∧ t.dt = 3 ∧ t.schedule = [] := by
  have fault : stepEvent { State.reset with dt := 4, schedule := [.tickDT] }
      = .next (State.recordFault { State.reset with dt := 4, schedule := [.tickDT] } (.decodeError 0)) := stepEvent_fault rfl rfl
  refine ⟨tickDT { State.recordFault { State.reset with dt := 4, schedule := [.tickDT] } (.decodeError 0) with schedule := [] },
    ?_, rfl, ?_, rfl⟩
  · show andThen (stepEvent { State.reset with dt := 4, schedule := [.tickDT] }) (runSteps 1) = _
    rw [fault]
    rfl
  · show tickDown 4 = 3
    decide

/-- Decision D3: `FONT_BASE` is any address up to `0x1B0`; `F·29` agrees with it, and the glyph's bytes are there. -/
theorem test_font_base :
    nextHas (at16 0xF029 { regs 0 0xF 1 0 with params := ⟨false, 0x1B0, defaultFontRows⟩ }) (fun t => t.i = 0x1FB) = true
    ∧ { State.reset with params := ⟨false, 0x1B0, defaultFontRows⟩ }.byteAt 0x1FB = 0xF0
    ∧ { State.reset with params := ⟨false, 0x1B0, defaultFontRows⟩ }.byteAt 0x000 = 0 := by decide
/-- R36: the default of `FONT_TABLE`, byte by byte. -/
theorem test_default_font : (List.range 80).map (fontByte defaultParams) = fontTable := by decide
/-- X8: the pad byte; and the ROM over the zero fill. -/
theorem test_construct_pads :
    (match construct defaultParams (Vector.replicate 16 0) 0 [] [0x60, 0x05, 0x71] with
      | .ok s => s.byteAt 0x200 = 0x60 && s.byteAt 0x202 = 0x71 && s.byteAt 0x203 = 0 && s.byteAt 0x000 = 0xF0
      | .error _ => false) = true := by decide
/-- The machine behind the host's interface is this one. -/
theorem test_core : core.reset = State.reset ∧ core.step = step := ⟨rfl, rfl⟩

/-! ### Witnesses: states and operands that meet the hypotheses of each statement, clause by clause -/

/-- A next state with a property, from a computation. -/
theorem next_of {r : Result} {p : State → Prop} [DecidablePred p] (h : nextHas r (fun t => decide (p t)) = true) :
    ∃ t, r = .next t ∧ p t := by
  cases r with
  | next t => exact ⟨t, rfl, of_decide_eq_true h⟩
  | fault f => cases h
  | refused r => cases h

/-- The reset state with a `CLS` placed at its `PC`. -/
def ready : State := State.reset.withFetchWord 16 0x00E0

/-- The same at the last address an instruction can be fetched from. -/
def readyAtTheTop : State := { State.reset with pc := 0xFFE }.withFetchWord 16 0x00E0

/-- The same with a `RET` and an empty stack. -/
def readyToReturn : State := State.reset.withFetchWord 16 0x00EE

theorem ready_inv : ready.Inv := ⟨by decide, by decide, by decide, by decide⟩

theorem witness_DecodeOfEncodeIsTheInstruction : (Instr.drw 15 15 15).WellFormed := by decide
theorem witness_EncodeOfDecodedIsTheWord : decodeWord 0xDFFF = .ok (.drw 15 15 15) := by decide
theorem witness_IllegalWordsAreExactlyTheListed :
    decodeWord 0x00E0 ≠ .error (.illegal 0x00E0)
    ∧ Running State.reset ∧ fetch State.reset = .ok 0 ∧ decodeWord 0 = .error (.illegal 0) :=
  ⟨by decide, ⟨rfl, rfl⟩, by decide, by decide⟩
theorem witness_OpcodeMapSelectsTheDecodedInstruction :
    decodeWord 0xF065 = .ok (.ldVxMem 0) ∧ (⟨0xF0FF, 0xF065⟩ : OpcodeRow) ∈ opcodeTable
    ∧ OpcodeRow.accepts ⟨0xF0FF, 0xF065⟩ 0xF065 = true := by decide
theorem witness_StepRunsTheDecodedInstruction :
    Running ready ∧ Running readyAtTheTop ∧ readyAtTheTop.pc.toNat + 1 < 0x1000 ∧ ready.pc.toNat + 1 < 0x1000
    ∧ decode [ready.byteAt ready.pc.toNat, ready.byteAt (ready.pc.toNat + 1)] = .ok (.cls, [])
    ∧ decode [readyAtTheTop.byteAt readyAtTheTop.pc.toNat, readyAtTheTop.byteAt (readyAtTheTop.pc.toNat + 1)] = .ok (.cls, [])
    ∧ ready.schedule = [] ∧ { ready with schedule := [.step] }.schedule = .step :: [] :=
  ⟨⟨rfl, rfl⟩, ⟨rfl, rfl⟩, by decide, by decide, by decide, by decide, rfl, rfl⟩
/-- A scheduled step that answers a next state, and one that faults. -/
theorem witness_StepRunsTheDecodedInstruction_scheduled :
    (∃ t, exec .cls ready = .next t ∧ t.hint = .clear)
    ∧ decode [readyToReturn.byteAt readyToReturn.pc.toNat, readyToReturn.byteAt (readyToReturn.pc.toNat + 1)] = .ok (.ret, [])
    ∧ exec .ret readyToReturn = .fault .stackUnderflow :=
  ⟨next_of (by decide), by decide, rfl⟩
theorem witness_StepRunsTheDecodedInstruction_events :
    { ready with schedule := [.tickDT] }.schedule = .tickDT :: []
    ∧ { ready with schedule := [.tickST] }.schedule = .tickST :: []
    ∧ { ready with schedule := [.setKey 16 true] }.schedule = .setKey 16 true :: []
    ∧ { ready with schedule := [.toggleKey 15] }.schedule = .toggleKey 15 :: []
    ∧ { ready with schedule := [.setAll (Vector.replicate 16 true)] }.schedule
      = .setAll (Vector.replicate 16 true) :: [] := ⟨rfl, rfl, rfl, rfl, rfl⟩
theorem witness_FetchReadsTheWordAtPcOrFaults :
    Running { State.reset with pc := 0xFFF } ∧ 0x1000 ≤ { State.reset with pc := 0xFFF }.pc.toNat + 1
    ∧ Running { State.reset with pc := 0xFFE } ∧ { State.reset with pc := 0xFFE }.pc.toNat + 1 < 0x1000 :=
  ⟨⟨rfl, rfl⟩, by decide, ⟨rfl, rfl⟩, by decide⟩
theorem witness_PlacedWordIsTheNextInstruction :
    State.reset.MemWf ∧ decodeTableWord 16 0x6A42 = some (.ldVxKk 0xA 0x42) := by decide
theorem witness_HaltedMachineRepeatsItsFault :
    (halted []).fault = some (.fetchError 0x1000) ∧ (halted []).schedule = []
    ∧ (halted [.step]).schedule = [.step] ∧ (halted [.tickDT]).schedule = [.tickDT] ∧ (halted [.tickST]).schedule = [.tickST]
    ∧ (halted [.setKey 3 true]).schedule = [.setKey 3 true] ∧ (halted [.toggleKey 16]).schedule = [.toggleKey 16]
    ∧ (halted [.setAll (Vector.replicate 16 false)]).schedule = [.setAll (Vector.replicate 16 false)] :=
  ⟨rfl, rfl, rfl, rfl, rfl, rfl, rfl, rfl⟩
theorem witness_RaisedFaultIsRecordedAndReturned :
    State.reset.fault = none ∧ executorStep State.reset = .fault (.decodeError 0) := ⟨rfl, rfl⟩
theorem witness_HookCompletesOnALatchedPress :
    (waiting 15 (some ⟨15, true, true⟩)).fault = none ∧ (waiting 15 (some ⟨15, true, true⟩)).hook = .waitKey 15
    ∧ (waiting 15 (some ⟨15, true, true⟩)).lastEdge = some ⟨15, true, true⟩ := ⟨rfl, rfl, rfl⟩
theorem witness_WaitingStepsChangeNothing :
    (waiting 3 none).fault = none ∧ (waiting 3 none).hook = .waitKey 3 ∧ (waiting 3 none).lastEdge = none
    ∧ (∃ e, (waiting 3 (some ⟨7, true, false⟩)).lastEdge = some e ∧ e.current = false) ∧ 15 < 16 :=
  ⟨rfl, rfl, rfl, ⟨_, rfl, rfl⟩, by decide⟩
theorem witness_KeyWaitEndsWithOnePress :
    State.reset.fault = none ∧ State.reset.params.acceptsStaleEdge = false ∧ 15 < 16 := ⟨rfl, rfl, by decide⟩
theorem witness_DirectiveMovesThePc :
    (0x200 ≤ 0x200 ∧ 0x200 < 0x1000) ∧ (0x200 ≤ 0xFFF ∧ 0xFFF < 0x1000) ∧ ¬(0x200 ≤ 0x1FF ∧ 0x1FF < 0x1000)
    ∧ ¬(0x200 ≤ 0x1000 ∧ 0x1000 < 0x1000) := by decide
theorem witness_RetPopsAndJumps :
    (deep 0 0).sp.val = 0 ∧ 0 < (deep 1 0x200).sp.val ∧ 0x200 ≤ ((deep 1 0x200).stack[0]).toNat
    ∧ 0 < (deep 16 0xFFF).sp.val ∧ ((deep 16 0xFFF).stack[15]).toNat < 0x1000
    ∧ 0 < (deep 1 0x1FF).sp.val ∧ ¬(0x200 ≤ ((deep 1 0x1FF).stack[0]).toNat) := by decide
theorem witness_RetPopsAndJumps_in_range :
    (deep 1 0x1000).Inv ∧ (deep 1 0x1000).fault = none ∧ 0 < (deep 1 0x1000).sp.val
    ∧ ¬(0x200 ≤ ((deep 1 0x1000).stack[0]).toNat ∧ ((deep 1 0x1000).stack[0]).toNat < 0x1000) :=
  ⟨⟨by decide, by decide, by decide, by decide⟩, rfl, by decide, by decide⟩
/-- For `JP` and `CALL`: the first and last target, the last below, the full and the nearly full stack. -/
theorem witness_JpJumps_and_CallPushesAndJumps :
    0x200 ≤ (0x200 : Nnn).toNat ∧ (0xFFF : Nnn).toNat < 0x1000 ∧ (0x1FF : Nnn).toNat < 0x200 ∧ Running State.reset
    ∧ (deep 16 0x202).sp.val = 16 ∧ (deep 15 0x202).sp.val < 16 :=
  ⟨by decide, by decide, by decide, ⟨rfl, rfl⟩, by decide, by decide⟩
theorem witness_RetUndoesCall :
    ∃ t, exec (.call 0x300) { State.reset with pc := 0xFFC } = .next t ∧ t.stack = t.stack ∧ t.sp = t.sp
      ∧ 0x200 ≤ ((0xFFC : Word) + 2).toNat ∧ ((0xFFC : Word) + 2).toNat < 0x1000 := next_of (by decide)
/-- Both outcomes of each condition, and the state at `0xFFC`; `SkipOnKey` has the same conclusion. -/
theorem witness_SkipOnComparison :
    (regs 0 5 1 5).getV 0 = 5 ∧ (regs 0 5 1 6).getV 0 ≠ 6 ∧ (regs 0 5 1 5).getV 0 = (regs 0 5 1 5).getV 1
    ∧ (regs 0 5 1 6).getV 0 ≠ (regs 0 5 1 6).getV 1
    ∧ { State.reset with pc := 0xFFC }.pc = 0xFFC ∧ { State.reset with pc := 0xFFC }.fault = none
    ∧ { State.reset with pc := 0xFFC }.hook = .none := by decide
theorem witness_JpV0JumpsToTheSum :
    0x200 ≤ ((regs 0 0 1 0).getV 0).toNat + (0x200 : Nnn).toNat ∧ ((regs 0 0xFF 1 0).getV 0).toNat + (0xF00 : Nnn).toNat < 0x1000
    ∧ ¬((regs 0 0xFF 1 0).getV 0).toNat + (0xF01 : Nnn).toNat < 0x1000
    ∧ ¬0x200 ≤ ((regs 0 0 1 0).getV 0).toNat + (0x1FF : Nnn).toNat := by decide
/-- The words an `Encoding` clause is about, for each mask of R94. -/
theorem witness_Encoding :
    (0x00EE : Word) &&& 0xFFFF = 0x00EE ∧ (0x3A5B : Word) &&& 0xF000 = 0x3000 ∧ (0x8AB6 : Word) &&& 0xF00F = 0x8006
    ∧ (0xFF65 : Word) &&& 0xF0FF = 0xF065 := by decide
theorem witness_RndDrawsOneMaskedByte : (0x0F : Byte).getLsbD 7 = false := by decide
/-- For the flag-setting instructions: a destination that is not `VF`. -/
theorem witness_flag_setting_destination : (14 : Reg) ≠ 15 := by decide
theorem witness_LdFontPointsAtTheGlyph :
    ((regs 0 0xF 1 0).getV 0).toNat ≤ 0xF ∧ 0xF < ((regs 0 0x10 1 0).getV 0).toNat := by decide
theorem witness_LdBcdStoresThreeDigits :
    (index 0xFFD 0 9).MemWf ∧ (index 0xFFD 0 9).i.toNat + 2 < 0x1000
    ∧ 0x1000 ≤ (index 0xFFE 0 9).i.toNat + 2 := by decide
/-- For `LD [I], Vx` and `LD Vx, [I]`. -/
theorem witness_LdStoreWritesTheRegisters_and_LdLoadReadsTheRegisters :
    (index 0xFF0 0 9).MemWf ∧ (index 0xFF0 0 9).i.toNat + (15 : Reg).val < 0x1000
    ∧ 0x1000 ≤ (index 0xFF1 0 9).i.toNat + (15 : Reg).val ∧ (index 0xFFF 0 9).i.toNat + (0 : Reg).val < 0x1000 := by decide
theorem witness_StoredBytesAreFetched :
    (index 0x300 0 9).MemWf
    ∧ ∃ t, exec (.ldMemVx 1) (index 0x300 0 9) = .next t
      ∧ (1 : Reg).val = (0 : Reg).val + 1 ∧ (1 : Reg).val ≤ (1 : Reg).val
      ∧ { t with pc := 0x300 }.mem = t.mem ∧ { t with pc := 0x300 }.params = t.params
      ∧ { t with pc := 0x300 }.pc.toNat = (index 0x300 0 9).i.toNat + (0 : Reg).val :=
  ⟨by decide, next_of (by decide)⟩
theorem witness_AccessOutsideMemoryFaultsAtTheFirstAddress :
    (1 < accessLength (.drw 0 0 2) ∧ 0x1000 ≤ (index 0xFFF 0 0).i.toNat + 1 ∧ ∀ j, j < 1 → (index 0xFFF 0 0).i.toNat + j < 0x1000)
    ∧ (0 < accessLength (.ldVxMem 0) ∧ 0x1000 ≤ (index 0xFFFF 0 0).i.toNat + 0)
    ∧ (2 < accessLength (.ldBVx 0) ∧ ∀ j, j < 2 → (index 0xFFE 0 0).i.toNat + j < 0x1000)
    ∧ 15 < accessLength (.ldMemVx 15) := by decide
theorem witness_MemoriesThatReadAlikeAreEqual :
    Memory.wf (fun _ => 0) [(0x200, 1)]
    ∧ ∀ a, a < 0x1000 → Memory.read (fun _ => 0) [(0x200, 1)] a = Memory.read (fun _ => 0) [(0x200, 1)] a :=
  ⟨by decide, fun _ _ => rfl⟩
theorem witness_DrwBlitsTheSprite :
    (0 = 0 ∨ (index 0xFFFF 0 0).i.toNat + 0 ≤ 0x1000) ∧ (15 = 0 ∨ (index 0xFF1 0 0).i.toNat + 15 ≤ 0x1000)
    ∧ 15 ≠ 0 ∧ 0x1000 < (index 0xFF2 0 0).i.toNat + 15 := by decide
theorem witness_XorSpriteTurnsOverTheSpriteBits : 63 < 64 ∧ 31 < 32 := by decide
theorem witness_DrawingTwiceRestoresTheDisplay :
    ∃ t, exec (.drw 0 1 5) (regs 0 60 1 30) = .next t
      ∧ nextHas (exec (.drw 0 1 5) t) (fun _ => true) = true
      ∧ t.disp = t.disp ∧ t.spriteBytes 5 = (regs 0 60 1 30).spriteBytes 5
      ∧ (t.getV 0).toNat % 64 = ((regs 0 60 1 30).getV 0).toNat % 64
      ∧ (t.getV 1).toNat % 32 = ((regs 0 60 1 30).getV 1).toNat % 32 := next_of (by decide)
theorem witness_SkipOnKey :
    ((regs 0 15 1 0).getV 0).toNat < 16 ∧ 0xF < ((regs 0 16 1 0).getV 0).toNat
    ∧ (setKey 15 true State.reset).key 15 = true ∧ State.reset.key 15 = false := by decide
theorem witness_LdKeyArmsTheHook :
    State.reset.params.acceptsStaleEdge = false
    ∧ { State.reset with params := ⟨true, 0, defaultFontRows⟩ }.params.acceptsStaleEdge = true := ⟨rfl, rfl⟩
theorem witness_TickCountsDownToZero :
    0 < { State.reset with dt := 1 }.dt.toNat ∧ State.reset.dt.toNat = 0 ∧ 0 < { State.reset with st := 1 }.st.toNat
    ∧ State.reset.st.toNat = 0 := by decide
theorem witness_KeyUpdatesSetKeysAndLatch : (∃ i, i = 15 ∧ i < 16) ∧ ∃ i, i = 16 ∧ 15 < i :=
  ⟨⟨15, rfl, by decide⟩, 16, rfl, by decide⟩
theorem witness_ConstructionLoadsTheRom :
    3584 < (List.replicate 3585 (0 : Byte)).length ∧ (List.replicate 3584 (1 : Byte)).length ≤ 3584 := by simp
theorem witness_FontGlyphsAreFourPixelsWide : 15 < 16 ∧ 4 < 5 ∧ 3 < 4 := by decide
theorem witness_StepKeepsTheInvariant : ready.Inv ∧ ∃ t, step ready = .next t ∧ t.hint = .clear :=
  ⟨ready_inv, next_of (by decide)⟩
theorem witness_InstructionsRunFromProgramMemory :
    ready.Inv ∧ Running ready ∧ ∃ t, executorStep ready = .next t ∧ t.pc = 0x202 :=
  ⟨ready_inv, ⟨rfl, rfl⟩, next_of (by decide)⟩
theorem witness_RegistersAreWrittenOnlyAsListed :
    ∃ t, exec (.addVxVy 0 1) (regs 0 0xFF 1 1) = .next t ∧ t.getV 15 ≠ (regs 0 0xFF 1 1).getV 15 := next_of (by decide)
theorem witness_MemoryIsWrittenOnlyThroughIndex :
    (index 0xFFD 0 9).MemWf
    ∧ (∃ t, exec (.ldBVx 0) (index 0xFFD 0 9) = .next t ∧ t.byteAt 0xFFF ≠ (index 0xFFD 0 9).byteAt 0xFFF)
    ∧ ∃ t, exec (.ldMemVx 0) (index 0xFFD 0 9) = .next t ∧ t.byteAt 0xFFD ≠ (index 0xFFD 0 9).byteAt 0xFFD :=
  ⟨by decide, next_of (by decide), next_of (by decide)⟩
theorem witness_SpecialStateIsWrittenOnlyAsListed :
    (∃ t, exec (.drw 0 0 1) State.reset = .next t ∧ t.disp ≠ State.reset.disp)
    ∧ (∃ t, exec (.ldINnn 0xFFF) State.reset = .next t ∧ t.i ≠ State.reset.i)
    ∧ (∃ t, exec (.call 0x200) State.reset = .next t ∧ (t.stack ≠ State.reset.stack ∨ t.sp ≠ State.reset.sp))
    ∧ (∃ t, exec (.ldDtVx 0) (regs 0 9 1 0) = .next t ∧ t.dt ≠ (regs 0 9 1 0).dt)
    ∧ (∃ t, exec (.ldStVx 0) (regs 0 9 1 0) = .next t ∧ t.st ≠ (regs 0 9 1 0).st)
    ∧ ∃ t, exec (.ldVxK 0) State.reset = .next t ∧ (t.hook ≠ State.reset.hook ∨ t.lastEdge ≠ State.reset.lastEdge) :=
  ⟨next_of (by decide), next_of (by decide), next_of (by decide), next_of (by decide), next_of (by decide),
    next_of (by decide)⟩
theorem witness_SoundTimerIsReadByNoInstruction :
    (∀ x, Instr.ldVxDt 0 ≠ .ldStVx x) ∧ ∃ x, Instr.ldStVx 3 = .ldStVx x := ⟨nofun, 3, rfl⟩
theorem witness_InstructionsRaiseOnlyTheListedFaults : exec .ret State.reset = .fault .stackUnderflow := rfl

/-! ### A weakly fair execution: the two tickers and the executor in turn, on a halted machine with both timers running -/

/-- `DT`, `ST`, `step()`, and again. -/
def inTurn (k : Nat) : Event := if k % 3 = 0 then .tickDT else if k % 3 = 1 then .tickST else .step

/-- What an event of `inTurn` leaves of a halted machine. -/
def haltedAfter (e : Event) (s : State) : State :=
  match e with
  | .tickDT => tickDT s
  | .tickST => tickST s
  | _ => s

/-- The states of the execution. -/
def haltedRun : Nat → State
  | 0 => { halted [] with dt := 5, st := 2 }
  | k + 1 => haltedAfter (inTurn k) (haltedRun k)

theorem inTurn_cases (k : Nat) : inTurn k = .tickDT ∨ inTurn k = .tickST ∨ inTurn k = .step := by
  unfold inTurn
  split_ifs <;> simp

theorem haltedRun_fault (k : Nat) : (haltedRun k).fault = some (.fetchError 0x1000) := by
  induction k with
  | zero => rfl
  | succ k ih => rcases inTurn_cases k with e | e | e <;> simp [haltedRun, haltedAfter, e, ih]

theorem haltedRun_execution : IsExecution inTurn haltedRun := by
  intro k
  rcases inTurn_cases k with e | e | e <;> simp [haltedRun, haltedAfter, e, applyEvent, stepEvent_halted (haltedRun_fault k)]

theorem witness_WeaklyFairExecutionsRunTimersDown :
    WeaklyFair inTurn haltedRun ∧ (haltedRun 0).dt = 5 ∧ (haltedRun 0).st = 2
    ∧ (∀ j, 0 ≤ j → inTurn j = .tickDT ∨ (haltedRun (j + 1)).dt = (haltedRun j).dt)
    ∧ (∀ j, 0 ≤ j → inTurn j = .tickST ∨ (haltedRun (j + 1)).st = (haltedRun j).st)
    ∧ (haltedRun 0).fault = some (.fetchError 0x1000) := by
  refine ⟨⟨haltedRun_execution, fun k _ => ⟨3 * k, by omega, by simp [inTurn]⟩, fun k _ => ⟨3 * k + 1, by omega, ?_⟩,
    fun k => ⟨3 * k + 2, by omega, ?_⟩⟩, rfl, rfl, fun j _ => ?_, fun j _ => ?_, rfl⟩
  · simp [inTurn, Nat.add_mod]
  · simp [inTurn, Nat.add_mod]
  · rcases inTurn_cases j with e | e | e <;> simp [haltedRun, haltedAfter, e]
  · rcases inTurn_cases j with e | e | e <;> simp [haltedRun, haltedAfter, e]

end Sys2Proof.Tests
end

section
/-! PROOFS. Which words each group of the decoder refuses, always with the word itself as the error, and what a step does with
a refused word (30_encoding.md R93, R96). -/

namespace Sys2Proof

/-! ### The row groups -/

/-- One arm of a chain of tests on a word: the chain refuses when this test fails and the rest refuses. -/
theorem ite_ok_eq_error_iff {p : Prop} [Decidable p] {i : Instr} {r : Except DecodeError Instr} {e : DecodeError} :
    (if p then .ok i else r) = .error e ↔ ¬p ∧ r = .error e := by
  by_cases hp : p <;> simp [hp]

theorem decodeAlu_error_iff {w : Word} {x y : Reg} {e : DecodeError} :
    decodeAlu w x y = .error e ↔ e = .illegal w ∧ fieldN w ∈ [0x8, 0x9, 0xA, 0xB, 0xC, 0xD, 0xF] := by
  have hn := fieldN_lt w
  unfold decodeAlu
  generalize fieldN w = n at hn ⊢
  interval_cases n <;> simp [eq_comm (b := e)]

theorem decodeKey_error_iff {w : Word} {x : Reg} {e : DecodeError} :
    decodeKey w x = .error e ↔ e = .illegal w ∧ fieldKk w ∉ [0x9E, 0xA1] := by
  simp only [decodeKey, ite_ok_eq_error_iff, Except.error.injEq, List.mem_cons, List.not_mem_nil, or_false, not_or]
  tauto

theorem decodeMisc_error_iff {w : Word} {x : Reg} {e : DecodeError} :
    decodeMisc w x = .error e
      ↔ e = .illegal w ∧ fieldKk w ∉ [0x07, 0x0A, 0x15, 0x18, 0x1E, 0x29, 0x33, 0x55, 0x65] := by
  simp only [decodeMisc, ite_ok_eq_error_iff, Except.error.injEq, List.mem_cons, List.not_mem_nil, or_false, not_or]
  tauto

/-! ### The decoder -/

/-- The decoder refuses a word by its major opcode and, within a row group, by its minor opcode. -/
theorem decodeWord_error_iff {w : Word} {e : DecodeError} :
    decodeWord w = .error e ↔ e = .illegal w ∧
      ((fieldT w = 0 ∧ w ≠ 0x00E0 ∧ w ≠ 0x00EE)
      ∨ ((fieldT w = 5 ∨ fieldT w = 9) ∧ fieldN w ≠ 0)
      ∨ (fieldT w = 8 ∧ fieldN w ∈ [0x8, 0x9, 0xA, 0xB, 0xC, 0xD, 0xF])
      ∨ (fieldT w = 0xE ∧ fieldKk w ∉ [0x9E, 0xA1])
      ∨ (fieldT w = 0xF ∧ fieldKk w ∉ [0x07, 0x0A, 0x15, 0x18, 0x1E, 0x29, 0x33, 0x55, 0x65])) := by
  have ht := fieldT_lt w
  unfold decodeWord
  generalize fieldT w = t at ht ⊢
  match t, ht with
  | 8, _ => simpa using decodeAlu_error_iff
  | 14, _ => simpa using decodeKey_error_iff
  | 15, _ => simpa using decodeMisc_error_iff
  | 0, _ | 5, _ | 9, _ => simp [ite_ok_eq_error_iff, and_comm, and_assoc, eq_comm (b := e)]
  | 1, _ | 2, _ | 3, _ | 4, _ | 6, _ | 7, _ | 10, _ | 11, _ | 12, _ | 13, _ => simp
  | _ + 16, h => omega

theorem decodeWord_illegal_or_ok (w : Word) : decodeWord w = .error (.illegal w) ∨ ∃ i, decodeWord w = .ok i := by
  cases hd : decodeWord w with
  | ok i => exact .inr ⟨i, rfl⟩
  | error e =>
    obtain ⟨rfl, -⟩ := decodeWord_error_iff.mp hd
    exact .inl rfl

end Sys2Proof

namespace Sys2Proof.Machine

/-! ### What a running machine does with the word it fetched -/

theorem executorStep_fetched {s : State} {w : Word} (hr : Running s) (hw : fetch s = .ok w) :
    executorStep s = decodeAndExec w s := by
  obtain ⟨hfault, hhook⟩ := hr
  rw [executorStep_running hfault hhook, runInstruction, hw]

theorem decodeAndExec_error {s : State} {w : Word} {e : DecodeError} (h : decodeWord w = .error e) :
    decodeAndExec w s = .fault (.decodeError w) := by
  rw [decodeAndExec, h]

end Sys2Proof.Machine

namespace Sys2Proof.Proofs

open Sys2Proof Sys2Proof.Machine

/-- Settles O3: the decoder's refusals by major and minor opcode; `SHR` and `SHL` have meanings that do not name `y`. -/
theorem illegalWordsAreExactlyTheListed : Obligations.IllegalWordsAreExactlyTheListed := by
  unfold Obligations.IllegalWordsAreExactlyTheListed
  refine ⟨fun w => ?_, fun w => (decodeWord_illegal_or_ok w).resolve_left, fun s w hrun hfetch hillegal => ?_,
    fun x y y' s => ⟨?_, ?_⟩⟩
  · exact decodeWord_error_iff.trans (and_iff_right rfl)
  · rw [executorStep_fetched hrun hfetch, decodeAndExec_error hillegal]
  · rw [exec_shr, exec_shr]
  · rw [exec_shl, exec_shl]

end Sys2Proof.Proofs
end

section
/-! PROOFS. What a running machine's step does with its fetch: the fault of a `PC` without room for a word, and the word read
big-endian from memory as it stands (40_executor.md R122). -/

namespace Sys2Proof.Machine

theorem executorStep_fetch_error {s : State} {f : Fault} (hr : Running s) (he : fetch s = .error f) :
    executorStep s = .fault f := by
  obtain ⟨hfault, hhook⟩ := hr
  rw [executorStep_running hfault hhook, runInstruction, he]

end Sys2Proof.Machine

namespace Sys2Proof.Proofs

open Sys2Proof Sys2Proof.Machine

/-- Settles O7, by whether the two bytes from `PC` on lie in memory; neither case looks at the parity of `PC`. -/
theorem fetchReadsTheWordAtPcOrFaults : Obligations.FetchReadsTheWordAtPcOrFaults := by
  unfold Obligations.FetchReadsTheWordAtPcOrFaults
  intro s hrun
  constructor
  · intro houtside
    exact executorStep_fetch_error hrun (fetch_fault houtside)
  · intro hinside
    exact ⟨_, bigEndian_toNat _ _, executorStep_fetched hrun (fetch_ok hinside)⟩

end Sys2Proof.Proofs
end

section
/-! PROOFS. Which words the rows that fix a nibble or two decode, and what the instructions that only move `PC` do: a completed
step keeps every part of the state, a jump is taken inside the program area, a skip goes by its condition (41_control_flow.md R141,
R143 to R146; 40_executor.md R124). -/

namespace Sys2Proof.Machine

/-! ### Rows of the opcode table -/

/-- A row that fixes the major opcode only. -/
theorem encoding_of_fieldT {t : Nat} {build : Word → Instr} (ht : t < 16)
    (hdecode : ∀ w, fieldT w = t → decodeWord w = .ok (build w)) :
    Encoding 0xF000 (BitVec.ofNat 16 (t * 4096)) build :=
  fun w hw => hdecode w (fieldT_of_top ht hw)

/-- A row that fixes the major opcode and the last nibble. -/
theorem encoding_of_fieldT_fieldN {t c : Nat} {build : Word → Instr} (ht : t < 16) (hc : c < 16)
    (hdecode : ∀ w, fieldT w = t → fieldN w = c → decodeWord w = .ok (build w)) :
    Encoding 0xF00F (BitVec.ofNat 16 (t * 4096 + c)) build := by
  intro w hw
  obtain ⟨hT, hN⟩ := fields_of_nibbles ht hc hw
  exact hdecode w hT hN

/-! ### Moving the program counter -/

/-- No part of the state is `PC` or the hint. -/
theorem unchangedExcept_pc_hint (ps : List Part) (s : State) (pc : Word) (h : Hint) :
    UnchangedExcept ps s { s with pc := pc, hint := h } :=
  ⟨fun _ _ => rfl, fun _ => rfl, fun _ => ⟨rfl, rfl⟩, fun _ => rfl, fun _ => rfl, fun _ _ => rfl, fun _ => rfl, fun _ => rfl,
    fun _ => rfl, fun _ => rfl, fun _ => rfl, rfl, rfl, rfl⟩

/-- The fetch fault as a step gives it, for a `PC` without room for a word. -/
theorem executorStep_outside {s : State} {a : Word} (hr : Running s) (hpc : s.pc = a) (ha : 0x1000 ≤ a.toNat + 1) :
    executorStep s = .fault (.fetchError a) := by
  subst hpc
  exact executorStep_fetch_error hr (fetch_fault ha)

/-- An instruction that does nothing but jump. -/
theorem jumpsTo_of_complete {i : Instr} {s : State} {a : Nat} (hexec : exec i s = complete (.jump a) .none s) :
    JumpsTo a [] i s := by
  constructor
  · intro ha
    have hpc : (BitVec.ofNat 16 a).toNat = a := by
      rw [BitVec.toNat_ofNat]
      omega
    exact ⟨_, hexec.trans (complete_jump _ _ ha), hpc, rfl, unchangedExcept_pc_hint _ _ _ _⟩
  · intro ha
    exact hexec.trans (complete_jump_fault _ _ ha)

/-- An instruction that does nothing but skip on a condition. -/
theorem skipsWhen_of_complete {c : Prop} [Decidable c] {i : Instr} {s : State}
    (hexec : exec i s = complete (skipIf c) .none s) : SkipsWhen c i s := by
  constructor
  · intro hc
    have hskip : skipIf c = .skip := if_pos (decide_eq_true hc)
    rw [hskip, complete_skip] at hexec
    refine ⟨_, hexec, rfl, rfl, unchangedExcept_pc_hint _ _ _ _, fun hpc hfault hhook => ?_⟩
    have hend : s.pc + 4 = 0x1000 := by
      rw [hpc]
      rfl
    exact executorStep_outside ⟨hfault, hhook⟩ hend (by decide)
  · intro hc
    have hnext : skipIf c = .next := if_neg (by simpa using hc)
    rw [hnext, complete_next] at hexec
    exact ⟨_, hexec, ⟨rfl, rfl⟩, unchangedExcept_pc_hint _ _ _ _⟩

end Sys2Proof.Machine

namespace Sys2Proof.Proofs

open Sys2Proof Sys2Proof.Machine

/-- Settles O16: `JP` is one jump; from its last target, `0xFFF`, the next fetch has no room for a word. -/
theorem jpJumps : Obligations.JpJumps := by
  unfold Obligations.JpJumps
  refine ⟨encoding_of_fieldT (t := 1) (by decide) fun w hT => ?_, fun nnn s => jumpsTo_of_complete (exec_jp nnn s),
    fun s hrun => ?_⟩
  · simp only [decodeWord, hT]
  · have hjump : exec (.jp 0xFFF) s = .next { s with pc := 0xFFF, hint := .none } :=
      (exec_jp _ s).trans (complete_jump _ _ (by decide))
    exact ⟨_, hjump, executorStep_outside hrun rfl (by decide)⟩

/-- Settles O19: each of the four is a skip on its own condition. -/
theorem skipOnComparison : Obligations.SkipOnComparison := by
  unfold Obligations.SkipOnComparison
  refine ⟨encoding_of_fieldT (t := 3) (by decide) fun w hT => ?_, encoding_of_fieldT (t := 4) (by decide) fun w hT => ?_,
    encoding_of_fieldT_fieldN (t := 5) (c := 0) (by decide) (by decide) fun w hT hN => ?_,
    encoding_of_fieldT_fieldN (t := 9) (c := 0) (by decide) (by decide) fun w hT hN => ?_,
    fun x kk s => ⟨skipsWhen_of_complete (exec_seVxKk x kk s), skipsWhen_of_complete (exec_sneVxKk x kk s)⟩,
    fun x y s => ⟨skipsWhen_of_complete (exec_seVxVy x y s), skipsWhen_of_complete (exec_sneVxVy x y s)⟩⟩
  · simp only [decodeWord, hT]
  · simp only [decodeWord, hT]
  · simp only [decodeWord, hT, hN, if_true]
  · simp only [decodeWord, hT, hN, if_true]

end Sys2Proof.Proofs
end

section
/-! PROOFS. The rows of the group `8xy?`, the bytes the addition and the two subtractions give, and what a step does that writes
one register, or a result and then the flag (42_alu.md R160 to R163, R167, R168, R170). -/

namespace Sys2Proof.Machine

/-! ### Rows of the opcode table -/

/-- A row of the group `8xy?`, by its minor opcode. -/
theorem encoding_of_decodeAlu {c : Nat} {build : Reg → Reg → Instr} (hc : c < 16)
    (hdecode : ∀ w x y, fieldN w = c → decodeAlu w x y = .ok (build x y)) :
    Encoding 0xF00F (BitVec.ofNat 16 (8 * 4096 + c)) (fun w => build (fieldX w) (fieldY w)) := by
  refine encoding_of_fieldT_fieldN (by decide) hc fun w hT hN => ?_
  simp only [decodeWord, hT]
  exact hdecode w _ _ hN

/-! ### Results and flags as numbers -/

theorem flagByte_decide_toNat (p : Prop) [Decidable p] : (flagByte (decide p)).toNat = if p then 1 else 0 := by
  by_cases hp : p <;> simp [flagByte, hp]

theorem addCarry_result_toNat (a b : Byte) : (addCarry a b).1.toNat = (a.toNat + b.toNat) % 256 := by
  have ha := a.isLt
  have hb := b.isLt
  simp only [addCarry, BitVec.toNat_setWidth, BitVec.toNat_add]
  omega

/-- Bit 8 of the 9-bit sum is set exactly when the sum does not fit in a byte. -/
theorem addCarry_flag_toNat (a b : Byte) : (addCarry a b).2.toNat = if 256 ≤ a.toNat + b.toNat then 1 else 0 := by
  have ha := a.isLt
  have hb := b.isLt
  have hsum : (a.setWidth 9 + b.setWidth 9).toNat = a.toNat + b.toNat := by
    simp only [BitVec.toNat_add, BitVec.toNat_setWidth]
    omega
  have hbit : (a.setWidth 9 + b.setWidth 9).getLsbD 8 = decide (256 ≤ a.toNat + b.toNat) := by
    rw [← hsum]
    exact (BitVec.msb_eq_getLsbD_last _).symm.trans (BitVec.msb_eq_decide _)
  rw [addCarry, hbit, flagByte_decide_toNat]

theorem subNotBorrow_result_toNat (a b : Byte) : (subNotBorrow a b).1.toNat = (a.toNat + 256 - b.toNat) % 256 := by
  have hb := b.isLt
  rw [subNotBorrow, BitVec.toNat_sub]
  omega

theorem subNotBorrow_flag_toNat (a b : Byte) : (subNotBorrow a b).2.toNat = if b.toNat ≤ a.toNat then 1 else 0 :=
  flagByte_decide_toNat _

/-! ### Frames of register writes -/

theorem UnchangedExcept.trans {ps : List Part} {s t u : State} (hst : UnchangedExcept ps s t)
    (htu : UnchangedExcept ps t u) : UnchangedExcept ps s u := by
  obtain ⟨hv, hi, hstack, hdt, hsound, hmem, hdisp, hkeys, hedge, hhook, hdraws, hfault, hparams, hsched⟩ := hst
  obtain ⟨hv', hi', hstack', hdt', hsound', hmem', hdisp', hkeys', hedge', hhook', hdraws', hfault', hparams', hsched'⟩ := htu
  exact ⟨fun x h => (hv' x h).trans (hv x h), fun h => (hi' h).trans (hi h),
    fun h => ⟨(hstack' h).1.trans (hstack h).1, (hstack' h).2.trans (hstack h).2⟩, fun h => (hdt' h).trans (hdt h),
    fun h => (hsound' h).trans (hsound h), fun a h => (hmem' a h).trans (hmem a h), fun h => (hdisp' h).trans (hdisp h),
    fun h => (hkeys' h).trans (hkeys h), fun h => (hedge' h).trans (hedge h), fun h => (hhook' h).trans (hhook h),
    fun h => (hdraws' h).trans (hdraws h), hfault'.trans hfault, hparams'.trans hparams, hsched'.trans hsched⟩

theorem unchangedExcept_setV {ps : List Part} {x : Reg} (hx : Part.v x ∈ ps) (s : State) (b : Byte) :
    UnchangedExcept ps s (s.setV x b) := by
  refine ⟨fun y hy => s.getV_setV_ne b ?_, fun _ => rfl, fun _ => ⟨rfl, rfl⟩, fun _ => rfl, fun _ => rfl, fun _ _ => rfl,
    fun _ => rfl, fun _ => rfl, fun _ => rfl, fun _ => rfl, fun _ => rfl, rfl, rfl, rfl⟩
  rintro rfl
  exact hy hx

theorem unchangedExcept_setResultThenFlag (s : State) (x : Reg) (rf : Byte × Byte) :
    UnchangedExcept [.v x, .v 15] s (s.setResultThenFlag x rf) :=
  (unchangedExcept_setV (by simp) s rf.1).trans (unchangedExcept_setV (by simp [vf]) (s.setV x rf.1) rf.2)

/-! ### Steps that write registers -/

/-- A step that writes one register and goes to the next instruction. -/
theorem writesRegister_of_complete {i : Instr} {s : State} {x : Reg} {b : Byte}
    (hexec : exec i s = complete .next .none (s.setV x b)) :
    ∃ t, exec i s = .next t ∧ t.getV x = b ∧ Advances .none s t ∧ UnchangedExcept [.v x] s t := by
  rw [complete_next] at hexec
  exact ⟨_, hexec, s.getV_setV_same x b, ⟨rfl, rfl⟩,
    (unchangedExcept_setV (by simp) s b).trans (unchangedExcept_pc_hint _ _ _ _)⟩

/-- A step that writes a result and then the flag (R160), with the two bytes as numbers. -/
theorem writesResultThenFlag_of_complete {i : Instr} {s : State} {x : Reg} {rf : Byte × Byte} {result flag : Nat}
    (hexec : exec i s = complete .next .none (s.setResultThenFlag x rf))
    (hresult : rf.1.toNat = result) (hflag : rf.2.toNat = flag) :
    ∃ t, exec i s = .next t ∧ (x ≠ 15 → (t.getV x).toNat = result) ∧ (t.getV 15).toNat = flag
      ∧ Advances .none s t ∧ UnchangedExcept [.v x, .v 15] s t := by
  rw [complete_next] at hexec
  have hx (h : x ≠ vf) : (s.setResultThenFlag x rf).getV x = rf.1 := by
    rw [State.getV_setResultThenFlag, if_neg h, if_pos rfl]
  have hvf : (s.setResultThenFlag x rf).getV vf = rf.2 := s.getV_setResultThenFlag_vf x rf
  exact ⟨_, hexec, fun h => (congrArg BitVec.toNat (hx h)).trans hresult, (congrArg BitVec.toNat hvf).trans hflag,
    ⟨rfl, rfl⟩, (unchangedExcept_setResultThenFlag s x rf).trans (unchangedExcept_pc_hint _ _ _ _)⟩

end Sys2Proof.Machine

namespace Sys2Proof.Proofs

open Sys2Proof Sys2Proof.Machine

/-- Settles O21: one register write, of the literal. -/
theorem ldByteWritesTheLiteral : Obligations.LdByteWritesTheLiteral := by
  unfold Obligations.LdByteWritesTheLiteral
  refine ⟨encoding_of_fieldT (t := 6) (by decide) fun w hT => ?_,
    fun x kk s => writesRegister_of_complete (exec_ldVxKk x kk s)⟩
  simp only [decodeWord, hT]

/-- Settles O22: one register write, of the byte sum; `VF` is in the frame like every other register. -/
theorem addByteWrapsWithoutFlag : Obligations.AddByteWrapsWithoutFlag := by
  unfold Obligations.AddByteWrapsWithoutFlag
  refine ⟨encoding_of_fieldT (t := 7) (by decide) fun w hT => ?_, fun x kk s => ?_⟩
  · simp only [decodeWord, hT]
  · obtain ⟨t, hexec, hsum, hadvances, hframe⟩ := writesRegister_of_complete (exec_addVxKk x kk s)
    refine ⟨t, hexec, ?_, hadvances, hframe⟩
    rw [hsum, BitVec.toNat_add]

/-- Settles O23: one register write, of the byte read from `V[y]` before it. -/
theorem ldRegisterCopies : Obligations.LdRegisterCopies := by
  unfold Obligations.LdRegisterCopies
  refine ⟨encoding_of_decodeAlu (c := 0) (by decide) fun w x y hN => ?_,
    fun x y s => writesRegister_of_complete (exec_ldVxVy x y s)⟩
  simp only [decodeAlu, hN]

/-- Settles O25: the result and the flag are the 9-bit sum of the old values, taken apart before either is written. -/
theorem addRegistersSetsCarry : Obligations.AddRegistersSetsCarry := by
  unfold Obligations.AddRegistersSetsCarry
  refine ⟨encoding_of_decodeAlu (c := 4) (by decide) fun w x y hN => ?_, fun x y s =>
    writesResultThenFlag_of_complete (exec_addVxVy x y s) (addCarry_result_toNat _ _) (addCarry_flag_toNat _ _)⟩
  simp only [decodeAlu, hN]

/-- Settles O26: `SUBN` is `SUB` with the two old values exchanged. -/
theorem subtractionsSetNotBorrow : Obligations.SubtractionsSetNotBorrow := by
  unfold Obligations.SubtractionsSetNotBorrow
  refine ⟨encoding_of_decodeAlu (c := 5) (by decide) fun w x y hN => ?_,
    encoding_of_decodeAlu (c := 7) (by decide) fun w x y hN => ?_, fun x y s =>
    ⟨writesResultThenFlag_of_complete (exec_sub x y s) (subNotBorrow_result_toNat _ _) (subNotBorrow_flag_toNat _ _),
      writesResultThenFlag_of_complete (exec_subn x y s) (subNotBorrow_result_toNat _ _) (subNotBorrow_flag_toNat _ _)⟩⟩
  · simp only [decodeAlu, hN]
  · simp only [decodeAlu, hN]

end Sys2Proof.Proofs
end

section
/-! PROOFS. The rows that fix the major opcode and the low byte, the group `Fx??` among them, and what a step does that writes `I`
alone (43_index_memory.md R190, R191). -/

namespace Sys2Proof.Machine

/-! ### Rows of the opcode table -/

/-- A row that fixes the major opcode and the low byte. -/
theorem encoding_of_fieldT_fieldKk {t c : Nat} {build : Word → Instr} (ht : t < 16) (hc : c < 256)
    (hdecode : ∀ w, fieldT w = t → fieldKk w = BitVec.ofNat 8 c → decodeWord w = .ok (build w)) :
    Encoding 0xF0FF (BitVec.ofNat 16 (t * 4096 + c)) build := by
  intro w hw
  obtain ⟨hT, hKk⟩ := fields_of_lowByte ht hc hw
  exact hdecode w hT hKk

/-- A row of the group `Fx??`, by its low byte. -/
theorem encoding_of_decodeMisc {c : Nat} {build : Reg → Instr} (hc : c < 256)
    (hdecode : ∀ w x, fieldKk w = BitVec.ofNat 8 c → decodeMisc w x = .ok (build x)) :
    Encoding 0xF0FF (BitVec.ofNat 16 (0xF * 4096 + c)) (fun w => build (fieldX w)) := by
  refine encoding_of_fieldT_fieldKk (by decide) hc fun w hT hKk => ?_
  simp only [decodeWord, hT]
  exact hdecode w _ hKk

/-! ### Writing the index register -/

theorem unchangedExcept_i (s : State) (a : Word) : UnchangedExcept [.i] s { s with i := a } :=
  ⟨fun _ _ => rfl, fun h => absurd List.mem_cons_self h, fun _ => ⟨rfl, rfl⟩, fun _ => rfl, fun _ => rfl, fun _ _ => rfl,
    fun _ => rfl, fun _ => rfl, fun _ => rfl, fun _ => rfl, fun _ => rfl, rfl, rfl, rfl⟩

/-- A step that writes `I` and goes to the next instruction, with the address as a number. -/
theorem writesIndex_of_complete {i : Instr} {s : State} {a : Word} {n : Nat}
    (hexec : exec i s = complete .next .none { s with i := a }) (ha : a.toNat = n) :
    ∃ t, exec i s = .next t ∧ t.i.toNat = n ∧ Advances .none s t ∧ UnchangedExcept [.i] s t := by
  rw [complete_next] at hexec
  exact ⟨_, hexec, ha, ⟨rfl, rfl⟩, (unchangedExcept_i s a).trans (unchangedExcept_pc_hint _ _ _ _)⟩

theorem zext16_toNat (nnn : Nnn) : (zext16 nnn).toNat = nnn.toNat :=
  BitVec.toNat_setWidth_of_le (by decide)

/-- The 16-bit sum of an address and a zero-extended byte: it wraps at 65536 and at no smaller bound (R191). -/
theorem add_setWidth_byte_toNat (a : Word) (b : Byte) :
    (a + b.setWidth 16).toNat = (a.toNat + b.toNat) % 65536 := by
  rw [BitVec.toNat_add, BitVec.toNat_setWidth_of_le (by decide)]

end Sys2Proof.Machine

namespace Sys2Proof.Proofs

open Sys2Proof Sys2Proof.Machine

/-- Settles O29: each is one write of `I`, of the zero-extended literal or of the 16-bit sum; `VF` is in the frame like every other
register. -/
theorem indexLoadsAndAdds : Obligations.IndexLoadsAndAdds := by
  unfold Obligations.IndexLoadsAndAdds
  refine ⟨encoding_of_fieldT (t := 0xA) (by decide) fun w hT => ?_,
    encoding_of_decodeMisc (c := 0x1E) (by decide) fun w x hKk => ?_,
    fun nnn s => writesIndex_of_complete (exec_ldINnn nnn s) (zext16_toNat nnn),
    fun x s => writesIndex_of_complete (exec_addIVx x s) (add_setWidth_byte_toNat s.i (s.getV x))⟩
  · simp only [decodeWord, hT]
  · simp [decodeMisc, hKk]

end Sys2Proof.Proofs
end

section
/-! PROOFS. The rows that fix a whole word, and what a step does that writes the display alone (44_display.md R210, R212). -/

namespace Sys2Proof.Machine

/-- A row that fixes every bit of the word. -/
theorem encoding_of_word {a : Word} {i : Instr} (hdecode : decodeWord a = .ok i) : Encoding 0xFFFF a fun _ => i := by
  intro w hw
  have hwa : w = a := BitVec.and_allOnes.symm.trans hw
  rw [hwa, hdecode]

theorem unchangedExcept_disp {ps : List Part} (hps : Part.disp ∈ ps) (s : State) (d : Display) :
    UnchangedExcept ps s { s with disp := d } :=
  ⟨fun _ _ => rfl, fun _ => rfl, fun _ => ⟨rfl, rfl⟩, fun _ => rfl, fun _ => rfl, fun _ _ => rfl,
    fun h => absurd hps h, fun _ => rfl, fun _ => rfl, fun _ => rfl, fun _ => rfl, rfl, rfl, rfl⟩

end Sys2Proof.Machine

namespace Sys2Proof.Proofs

open Sys2Proof Sys2Proof.Machine

/-- Settles O37: the step writes the clear display, and `VF` is in the frame like every other register. -/
theorem clsClearsEveryCell : Obligations.ClsClearsEveryCell := by
  unfold Obligations.ClsClearsEveryCell
  refine ⟨encoding_of_word rfl, fun s => ?_⟩
  exact ⟨_, (exec_cls s).trans (complete_next _ _), Display.cell_clear, ⟨rfl, rfl⟩,
    (unchangedExcept_disp List.mem_cons_self s _).trans (unchangedExcept_pc_hint _ _ _ _)⟩

end Sys2Proof.Proofs
end

section
/-! PROOFS. The blit as the cells it turns over: a pixel, a run of pixels, a row and a list of rows each turn over the cells of a
mask once, and two parts with disjoint masks compose to the union of the masks (44_display.md R213). -/

namespace Sys2Proof.Machine

/-! ### Turning over the cells of a mask -/

/-- From `p` to `q`, every cell of the grid in the mask `m` is turned over, every other one is kept, and the collision bit becomes
set exactly when one of the turned cells was lit. -/
structure TurnsOver (m : Nat → Nat → Bool) (p q : Display × Bool) : Prop where
  cell_eq : ∀ c r, c < 64 → r < 32 → Display.cell q.1 c r = (Display.cell p.1 c r ^^ m c r)
  collision_iff : q.2 = true ↔
    p.2 = true ∨ ∃ c r, c < 64 ∧ r < 32 ∧ m c r = true ∧ Display.cell p.1 c r = true

/-- A mask with no cell on the grid, for a part of the sprite that is clipped or 0. -/
theorem TurnsOver.refl_of_clipped {m : Nat → Nat → Bool} (hm : ∀ c r, c < 64 → r < 32 → m c r = false)
    (p : Display × Bool) : TurnsOver m p p := by
  refine ⟨fun c r hc hr => by rw [hm c r hc hr, Bool.xor_false], .inl, ?_⟩
  rintro (hp | ⟨c, r, hc, hr, hmcr, -⟩)
  · exact hp
  · exact absurd ((hm c r hc hr).symm.trans hmcr) Bool.false_ne_true

/-- Two parts of a blit that share no cell: the second one finds its own cells as they were before the first. -/
theorem TurnsOver.trans {m m' n : Nat → Nat → Bool} {p q u : Display × Bool} (hpq : TurnsOver m p q)
    (hqu : TurnsOver m' q u) (hdisjoint : ∀ c r, m c r = true → m' c r = false)
    (hunion : ∀ c r, n c r = (m c r || m' c r)) : TurnsOver n p u := by
  have hkept : ∀ c r, c < 64 → r < 32 → m' c r = true → Display.cell q.1 c r = Display.cell p.1 c r := by
    intro c r hc hr hm'
    have hm : m c r = false := Bool.eq_false_iff.mpr fun hm => Bool.false_ne_true ((hdisjoint c r hm).symm.trans hm')
    rw [hpq.cell_eq c r hc hr, hm, Bool.xor_false]
  constructor
  · intro c r hc hr
    rw [hqu.cell_eq c r hc hr, hpq.cell_eq c r hc hr, hunion, Bool.xor_assoc]
    cases hm : m c r with
    | false => simp
    | true => simp [hdisjoint c r hm]
  · rw [hqu.collision_iff, hpq.collision_iff]
    constructor
    · rintro ((hp | ⟨c, r, hc, hr, hm, hlit⟩) | ⟨c, r, hc, hr, hm', hlit⟩)
      · exact .inl hp
      · exact .inr ⟨c, r, hc, hr, by simp [hunion, hm], hlit⟩
      · exact .inr ⟨c, r, hc, hr, by simp [hunion, hm'], hkept c r hc hr hm' ▸ hlit⟩
    · rintro (hp | ⟨c, r, hc, hr, hn, hlit⟩)
      · exact .inl (.inl hp)
      · rcases Bool.or_eq_true_iff.mp ((hunion c r).symm.trans hn) with hm | hm'
        · exact .inl (.inr ⟨c, r, hc, hr, hm, hlit⟩)
        · exact .inr ⟨c, r, hc, hr, hm', (hkept c r hc hr hm').trans hlit⟩

/-! ### The masks of the parts of a sprite -/

/-- The one cell at column `sx + k`, row `sy`, if bit `7 - k` of `b` is 1. -/
def pixelMask (sx sy : Nat) (b : Byte) (k c r : Nat) : Bool := decide (c = sx + k ∧ r = sy) && b.getLsbD (7 - k)

/-- The cells under the 1-bits of the pixels `k, ..., k + left - 1` of a sprite row. -/
def pixelsMask (sx sy : Nat) (b : Byte) (k left c r : Nat) : Bool :=
  decide (sx + k ≤ c ∧ c < sx + k + left ∧ r = sy) && b.getLsbD (7 - (c - sx))

theorem pixelsMask_succ (sx sy : Nat) (b : Byte) (k left c r : Nat) :
    pixelsMask sx sy b k (left + 1) c r = (pixelMask sx sy b k c r || pixelsMask sx sy b (k + 1) left c r) := by
  unfold pixelsMask pixelMask
  by_cases hc : c = sx + k
  · subst hc
    have hnot : ¬sx + (k + 1) ≤ sx + k := by omega
    simp [hnot]
  · have hiff : (sx + k ≤ c ∧ c < sx + k + (left + 1) ∧ r = sy)
        ↔ (sx + (k + 1) ≤ c ∧ c < sx + (k + 1) + left ∧ r = sy) := by omega
    simp only [hiff, hc, false_and, decide_false, Bool.false_and, Bool.false_or]

theorem pixelMask_disjoint {sx sy k left c r : Nat} {b : Byte} (h : pixelMask sx sy b k c r = true) :
    pixelsMask sx sy b (k + 1) left c r = false := by
  simp only [pixelMask, Bool.and_eq_true, decide_eq_true_eq] at h
  obtain ⟨⟨hc, -⟩, -⟩ := h
  have hnot : ¬(sx + (k + 1) ≤ c ∧ c < sx + (k + 1) + left ∧ r = sy) := by omega
  rw [pixelsMask, decide_eq_false hnot, Bool.false_and]

theorem spriteBit_eq_true_iff {sx sy c r : Nat} {bytes : List Byte} :
    spriteBit sx sy bytes c r = true ↔ (sx ≤ c ∧ c < sx + 8 ∧ sy ≤ r ∧ r < sy + bytes.length)
      ∧ (bytes.getD (r - sy) 0).getLsbD (7 - (c - sx)) = true := by
  rw [spriteBit, Bool.and_eq_true, decide_eq_true_eq]

/-- A sprite of one row. -/
theorem spriteBit_singleton (sx sy : Nat) (b : Byte) (c r : Nat) :
    spriteBit sx sy [b] c r = pixelsMask sx sy b 0 8 c r := by
  unfold spriteBit pixelsMask
  by_cases hr : r = sy
  · subst hr
    simp
  · have hnot : ¬(sx ≤ c ∧ c < sx + 8 ∧ sy ≤ r ∧ r < sy + [b].length) := by
      rw [List.length_singleton]
      omega
    simp only [decide_eq_false hnot, hr, and_false, decide_false, Bool.false_and]

/-- A sprite is its first row and, from one row further down, the rest. -/
theorem spriteBit_cons (sx sy : Nat) (b : Byte) (bs : List Byte) (c r : Nat) :
    spriteBit sx sy (b :: bs) c r = (spriteBit sx sy [b] c r || spriteBit sx (sy + 1) bs c r) := by
  unfold spriteBit
  rcases lt_trichotomy r sy with hr | rfl | hr
  · simp [show ¬sy ≤ r by omega, show ¬sy + 1 ≤ r by omega]
  · simp
  · obtain ⟨j, rfl⟩ := Nat.exists_eq_add_of_lt hr
    have hj : sy + j + 1 - sy = j + 1 := by omega
    have hj' : sy + j + 1 - (sy + 1) = j := by omega
    have hrange : sy ≤ sy + j + 1 ∧ sy + j + 1 < sy + (bs.length + 1)
        ↔ sy + 1 ≤ sy + j + 1 ∧ sy + j + 1 < sy + 1 + bs.length := by omega
    simp [hj, hj', hrange]

theorem spriteBit_singleton_disjoint {sx sy c r : Nat} {b : Byte} {bs : List Byte}
    (h : spriteBit sx sy [b] c r = true) : spriteBit sx (sy + 1) bs c r = false := by
  obtain ⟨⟨-, -, -, hr⟩, -⟩ := spriteBit_eq_true_iff.mp h
  rw [List.length_singleton] at hr
  refine Bool.eq_false_iff.mpr fun h' => ?_
  obtain ⟨⟨-, -, hr', -⟩, -⟩ := spriteBit_eq_true_iff.mp h'
  omega

/-! ### The parts of the blit -/

theorem Display.cell_flip_eq_xor (d : Display) {c r : Nat} (hc : c < 64) (hr : r < 32) (c' r' : Nat) :
    Display.cell (Display.flip d c r) c' r' = (Display.cell d c' r' ^^ decide (c' = c ∧ r' = r)) := by
  rw [Display.cell_flip d hc hr]
  by_cases h : c' = c ∧ r' = r
  · obtain ⟨rfl, rfl⟩ := h
    simp
  · rw [if_neg h, decide_eq_false h, Bool.xor_false]

theorem xorPixel_turnsOver (sx : Nat) {sy : Nat} (hsy : sy < 32) (b : Byte) (k : Nat) (p : Display × Bool) :
    TurnsOver (pixelMask sx sy b k) p (xorPixel (sx + k) sy (b.getLsbD (7 - k)) p) := by
  rcases xorPixel_cases (sx + k) sy (b.getLsbD (7 - k)) p with ⟨hskip, hpixel⟩ | ⟨hbit, hc, hpixel⟩
  · rw [hpixel]
    refine .refl_of_clipped (fun c r hc _ => ?_) p
    rcases hskip with hbit | hclip
    · rw [pixelMask, hbit, Bool.and_false]
    · have hne : ¬(c = sx + k ∧ r = sy) := by omega
      rw [pixelMask, decide_eq_false hne, Bool.false_and]
  · have hmask : ∀ c r, pixelMask sx sy b k c r = decide (c = sx + k ∧ r = sy) := fun c r => by
      rw [pixelMask, hbit, Bool.and_true]
    rw [hpixel]
    refine ⟨fun c r _ _ => ?_, ?_⟩
    · rw [hmask, Display.cell_flip_eq_xor p.1 hc hsy]
    · simp only [Bool.or_eq_true, hmask, decide_eq_true_eq]
      refine or_congr_right ⟨fun hlit => ⟨_, _, hc, hsy, ⟨rfl, rfl⟩, hlit⟩, ?_⟩
      rintro ⟨_, _, -, -, ⟨rfl, rfl⟩, hlit⟩
      exact hlit

theorem xorPixels_turnsOver (sx : Nat) {sy : Nat} (hsy : sy < 32) (b : Byte) (left k : Nat) (p : Display × Bool) :
    TurnsOver (pixelsMask sx sy b k left) p (xorPixels sx sy b k left p) := by
  induction left generalizing k p with
  | zero =>
    refine .refl_of_clipped (fun c r _ _ => ?_) p
    have hnot : ¬(sx + k ≤ c ∧ c < sx + k + 0 ∧ r = sy) := by omega
    rw [pixelsMask, decide_eq_false hnot, Bool.false_and]
  | succ left ih =>
    exact (xorPixel_turnsOver sx hsy b k p).trans (ih (k + 1) _) (fun _ _ => pixelMask_disjoint)
      (pixelsMask_succ sx sy b k left)

theorem xorRow_turnsOver (sx sy : Nat) (b : Byte) (p : Display × Bool) :
    TurnsOver (spriteBit sx sy [b]) p (xorRow sx sy b p) := by
  unfold xorRow
  split
  next hclip =>
    refine .refl_of_clipped (fun c r _ hr => ?_) p
    refine Bool.eq_false_iff.mpr fun h => ?_
    obtain ⟨⟨-, -, hsy, -⟩, -⟩ := spriteBit_eq_true_iff.mp h
    unfold Config.dispHeight at hclip
    omega
  next hclip =>
    have hmask : spriteBit sx sy [b] = pixelsMask sx sy b 0 8 := by
      funext c r
      exact spriteBit_singleton sx sy b c r
    rw [hmask]
    exact xorPixels_turnsOver sx (not_le.mp hclip) b 8 0 p

theorem xorRows_turnsOver (sx : Nat) (bytes : List Byte) (sy : Nat) (p : Display × Bool) :
    TurnsOver (spriteBit sx sy bytes) p (xorRows sx sy bytes p) := by
  induction bytes generalizing sy p with
  | nil =>
    refine .refl_of_clipped (fun c r _ _ => Bool.eq_false_iff.mpr fun h => ?_) p
    obtain ⟨⟨-, -, hlow, hhigh⟩, -⟩ := spriteBit_eq_true_iff.mp h
    exact absurd hhigh (not_lt.mpr hlow)
  | cons b bs ih =>
    exact (xorRow_turnsOver sx sy b p).trans (ih (sy + 1) _) (fun _ _ => spriteBit_singleton_disjoint)
      (spriteBit_cons sx sy b bs)

/-- The blit turns over the unclipped cells under a 1-bit, wherever it starts. -/
theorem xorSprite_turnsOver (sx sy : Nat) (bytes : List Byte) (d : Display) :
    TurnsOver (spriteBit sx sy bytes) (d, false) (xorSprite sx sy bytes d) :=
  xorRows_turnsOver sx bytes sy (d, false)

end Sys2Proof.Machine

namespace Sys2Proof.Proofs

open Sys2Proof Sys2Proof.Machine

/-- Settles O39: the blit turns over the cells under the sprite's 1-bits, from a collision bit that starts unset. -/
theorem xorSpriteTurnsOverTheSpriteBits : Obligations.XorSpriteTurnsOverTheSpriteBits := by
  unfold Obligations.XorSpriteTurnsOverTheSpriteBits
  intro sx sy bytes d _ _
  obtain ⟨hcells, hcollision⟩ := xorSprite_turnsOver sx sy bytes d
  exact ⟨hcells, hcollision.trans (or_iff_right Bool.false_ne_true)⟩

end Sys2Proof.Proofs
end

section
/-! PROOFS. What a step that writes the delay timer alone does (45_timers_keypad.md R231), what a tick takes from a timer
(60_exceptions.md R270), and a step with a pending hook by what the latch holds: it waits or it completes (45_timers_keypad.md R241,
R242). -/

namespace Sys2Proof.Machine

/-! ### The delay timer -/

theorem unchangedExcept_dt {ps : List Part} (hps : Part.dt ∈ ps) (s : State) (b : Byte) :
    UnchangedExcept ps s { s with dt := b } :=
  ⟨fun _ _ => rfl, fun _ => rfl, fun _ => ⟨rfl, rfl⟩, fun h => absurd hps h, fun _ => rfl, fun _ _ => rfl, fun _ => rfl,
    fun _ => rfl, fun _ => rfl, fun _ => rfl, fun _ => rfl, rfl, rfl, rfl⟩

/-- Truncated subtraction stops at 0 as the tick does. -/
theorem tickDown_toNat (t : Byte) : (tickDown t).toNat = t.toNat - 1 := by
  unfold tickDown
  split
  next hzero => simp [hzero]
  next hpos => exact BitVec.toNat_sub_of_le (by bv_omega)

/-! ### The latch -/

theorem latchedPress_of_no_press {s : State}
    (h : s.lastEdge = none ∨ ∃ e, s.lastEdge = some e ∧ e.current = false) : latchedPress s = none := by
  rcases h with hnone | ⟨e, hsome, hreleased⟩
  · simp only [latchedPress, hnone]
  · simp [latchedPress, hsome, hreleased]

theorem setKey_of_lt {k : Nat} (hk : k < 16) (v : Bool) (s : State) : setKey k v s = updateKey ⟨k, hk⟩ v s := dif_pos hk

/-- A key update latches a press of its own key or a release, whatever the latch held before. -/
theorem latchedPress_updateKey (k : Fin 16) (v : Bool) (s : State) :
    latchedPress (updateKey k v s) = if v then some k else none := rfl

/-! ### The step with a pending hook -/

theorem executorStep_waits {s : State} {x : Reg} (hfault : s.fault = none) (hhook : s.hook = .waitKey x)
    (hlatch : latchedPress s = none) : executorStep s = .next { s with hint := .wait } := by
  rw [executorStep_waiting hfault hhook, serviceHook, hlatch]

theorem executorStep_completes {s : State} {x : Reg} {k : Fin 16} (hfault : s.fault = none) (hhook : s.hook = .waitKey x)
    (hlatch : latchedPress s = some k) : executorStep s = .next (completeHook x k s) := by
  rw [executorStep_waiting hfault hhook, serviceHook, hlatch]

/-- The hint is all that the first waiting step writes, so the next one finds the same fault, hook and latch. -/
theorem executorSteps_wait {s : State} {x : Reg} (hfault : s.fault = none) (hhook : s.hook = .waitKey x)
    (hlatch : latchedPress s = none) (m : Nat) : executorSteps (m + 1) s = .next { s with hint := .wait } := by
  induction m generalizing s with
  | zero => rw [executorSteps, executorStep_waits hfault hhook hlatch, andThen_next, executorSteps]
  | succ m ih =>
    rw [executorSteps, executorStep_waits hfault hhook hlatch, andThen_next]
    exact ih (s := { s with hint := .wait }) hfault hhook hlatch

theorem completeHook_getV_toNat (x : Reg) (k : Fin 16) (s : State) : ((completeHook x k s).getV x).toNat = k.val := by
  have hkey : (completeHook x k s).getV x = BitVec.ofNat 8 k.val := s.getV_setV_same x _
  rw [hkey, BitVec.toNat_ofNat]
  omega

end Sys2Proof.Machine

namespace Sys2Proof.Proofs

open Sys2Proof Sys2Proof.Machine

/-- Settles O12: without a latched press the step waits, and neither a release nor a bulk update latches one; a press does. -/
theorem waitingStepsChangeNothing : Obligations.WaitingStepsChangeNothing := by
  unfold Obligations.WaitingStepsChangeNothing
  intro s x hfault hhook hedge
  refine ⟨executorSteps_wait hfault hhook (latchedPress_of_no_press hedge), hhook, tickDown_toNat s.dt, hhook,
    tickDown_toNat s.st, fun k hk => ?_, fun bits => ?_, fun k hk => ?_⟩
  · rw [setKey_of_lt hk]
    exact executorStep_waits hfault hhook (latchedPress_updateKey ⟨k, hk⟩ false s)
  · exact executorStep_waits hfault hhook (latchedPress_of_no_press (.inl rfl))
  · rw [setKey_of_lt hk]
    exact ⟨_, executorStep_completes hfault hhook (latchedPress_updateKey ⟨k, hk⟩ true s),
      completeHook_getV_toNat x ⟨k, hk⟩ _, rfl⟩

/-- Settles O41: one is a register write of `DT`, the other a write of `DT` alone. -/
theorem ldMovesTheDelayTimer : Obligations.LdMovesTheDelayTimer := by
  unfold Obligations.LdMovesTheDelayTimer
  refine ⟨encoding_of_decodeMisc (c := 0x07) (by decide) fun w x hKk => ?_,
    encoding_of_decodeMisc (c := 0x15) (by decide) fun w x hKk => ?_,
    fun x s => ⟨writesRegister_of_complete (exec_ldVxDt x s), ?_⟩⟩
  · simp [decodeMisc, hKk]
  · simp [decodeMisc, hKk]
  · exact ⟨_, (exec_ldDtVx x s).trans (complete_next _ _), rfl, ⟨rfl, rfl⟩,
      (unchangedExcept_dt List.mem_cons_self s _).trans (unchangedExcept_pc_hint _ _ _ _)⟩

end Sys2Proof.Proofs
end

section
/-! PROOFS. The two tickers on the state (60_exceptions.md R270). -/

namespace Sys2Proof.Machine

theorem unchangedExcept_st {ps : List Part} (hps : Part.st ∈ ps) (s : State) (b : Byte) :
    UnchangedExcept ps s { s with st := b } :=
  ⟨fun _ _ => rfl, fun _ => rfl, fun _ => ⟨rfl, rfl⟩, fun _ => rfl, fun hst => absurd hps hst, fun _ _ => rfl, fun _ => rfl,
    fun _ => rfl, fun _ => rfl, fun _ => rfl, fun _ => rfl, rfl, rfl, rfl⟩

theorem tickDown_eq_zero {t : Byte} (h : t.toNat = 0) : tickDown t = 0 :=
  if_pos (BitVec.eq_of_toNat_eq h)

end Sys2Proof.Machine

namespace Sys2Proof.Proofs

open Sys2Proof Sys2Proof.Machine

/-- Settles O45: each ticker writes its own timer alone, with the counter's next value. -/
theorem tickCountsDownToZero : Obligations.TickCountsDownToZero := by
  unfold Obligations.TickCountsDownToZero
  intro s
  exact ⟨fun _ => tickDown_toNat s.dt, tickDown_eq_zero, unchangedExcept_dt List.mem_cons_self s _, tickDT_pc s,
    fun _ => tickDown_toNat s.st, tickDown_eq_zero, unchangedExcept_st List.mem_cons_self s _, tickST_pc s⟩

end Sys2Proof.Proofs
end

section
/-! PROOFS. Decoding and encoding are inverse to each other, and each row of the opcode map is one constructor of `Instr` with the
operands read from the word (30_encoding.md R92 to R94). -/

namespace Sys2Proof

/-! ### The decoder after the encoder -/

theorem wellFormed_drw_iff {x y : Reg} {n : Nat} : (Instr.drw x y n).WellFormed ↔ n < 16 := decide_eq_true_iff

/-- By the format of the word: each field of a packed word is the operand that was packed. -/
theorem decodeWord_encode {i : Instr} (hi : i.WellFormed) : decodeWord (encode i) = .ok i := by
  cases i with
  | cls | ret => rfl
  | jp nnn | call nnn | ldINnn nnn | jpV0Nnn nnn => simp [encode, decodeWord, fields_packNnn]
  | seVxKk x kk | sneVxKk x kk | ldVxKk x kk | addVxKk x kk | rnd x kk => simp [encode, decodeWord, fields_packXKk]
  | seVxVy x y | sneVxVy x y => simp [encode, decodeWord, fields_packNibbles]
  | ldVxVy x y | or x y | and x y | xor x y | addVxVy x y | sub x y | shr x y | subn x y | shl x y =>
    simp [encode, decodeWord, decodeAlu, fields_packNibbles]
  | drw x y n => simp [encode, decodeWord, fields_packNibbles, wellFormed_drw_iff.mp hi]
  | skp x | sknp x => simp [encode, decodeWord, decodeKey, fields_packXKk]
  | ldVxDt x | ldVxK x | ldDtVx x | ldStVx x | addIVx x | ldFVx x | ldBVx x | ldMemVx x | ldVxMem x =>
    simp [encode, decodeWord, decodeMisc, fields_packXKk]

theorem decode_encodeBytes_append {i : Instr} (hi : i.WellFormed) (rest : List Byte) :
    decode (encodeBytes i ++ rest) = .ok (i, rest) := by
  simp only [encodeBytes, List.cons_append, List.nil_append, decode, bigEndian_bytes, decodeWord_encode hi]

/-! ### The encoder after the decoder -/

/-- What decoding keeps of a word: the instruction can be encoded, and its word is the one decoded. -/
def Instr.Encodes (i : Instr) (w : Word) : Prop := i.WellFormed ∧ encode i = w

theorem packNnn_of_fieldT {w : Word} {t : Nat} (hT : fieldT w = t) : packNnn t (fieldNnn w) = w :=
  hT ▸ packNnn_fields w

theorem packXKk_of_fields {w : Word} {t : Nat} {kk : Byte} (hT : fieldT w = t) (hKk : fieldKk w = kk) :
    packXKk t (fieldX w) kk = w := hT ▸ hKk ▸ packXKk_fields w

theorem packNibbles_of_fields {w : Word} {t c : Nat} (hT : fieldT w = t) (hN : fieldN w = c) :
    packNibbles t (fieldX w).val (fieldY w).val c = w := hT ▸ hN ▸ packNibbles_fields w

theorem encodes_of_decodeAlu {w : Word} {i : Instr} (hT : fieldT w = 8)
    (h : decodeAlu w (fieldX w) (fieldY w) = .ok i) : i.Encodes w := by
  unfold decodeAlu at h
  split at h <;> cases h
  all_goals exact ⟨rfl, packNibbles_of_fields hT (by assumption)⟩

theorem encodes_of_decodeKey {w : Word} {i : Instr} (hT : fieldT w = 0xE) (h : decodeKey w (fieldX w) = .ok i) :
    i.Encodes w := by
  unfold decodeKey at h
  repeat' split at h
  all_goals cases h
  all_goals exact ⟨rfl, packXKk_of_fields hT (by assumption)⟩

theorem encodes_of_decodeMisc {w : Word} {i : Instr} (hT : fieldT w = 0xF) (h : decodeMisc w (fieldX w) = .ok i) :
    i.Encodes w := by
  unfold decodeMisc at h
  repeat' split at h
  all_goals cases h
  all_goals exact ⟨rfl, packXKk_of_fields hT (by assumption)⟩

/-- One arm of a chain of tests on a word: the chain decodes when this test succeeds or the rest decodes. -/
theorem ite_ok_eq_ok_iff {p : Prop} [Decidable p] {i j : Instr} {r : Except DecodeError Instr} :
    (if p then .ok i else r) = .ok j ↔ p ∧ i = j ∨ ¬p ∧ r = .ok j := by
  by_cases hp : p <;> simp [hp]

/-- By the major opcode. -/
theorem encodes_of_decodeWord {w : Word} {i : Instr} : decodeWord w = .ok i → i.Encodes w := by
  have hlt := fieldT_lt w
  unfold decodeWord
  generalize hT : fieldT w = t at hlt ⊢
  match t, hlt, hT with
  | 0, _, _ =>
    simp only [ite_ok_eq_ok_iff, reduceCtorEq, and_false, or_false]
    rintro (⟨rfl, rfl⟩ | ⟨-, rfl, rfl⟩) <;> exact ⟨rfl, rfl⟩
  | 5, _, hT | 9, _, hT =>
    simp only [ite_ok_eq_ok_iff, reduceCtorEq, and_false, or_false]
    rintro ⟨hN, rfl⟩
    exact ⟨rfl, packNibbles_of_fields hT hN⟩
  | 8, _, hT => exact encodes_of_decodeAlu hT
  | 14, _, hT => exact encodes_of_decodeKey hT
  | 15, _, hT => exact encodes_of_decodeMisc hT
  | 13, _, hT => rintro ⟨⟩; exact ⟨wellFormed_drw_iff.mpr (fieldN_lt w), packNibbles_of_fields hT rfl⟩
  | 1, _, hT | 2, _, hT | 10, _, hT | 11, _, hT => rintro ⟨⟩; exact ⟨rfl, packNnn_of_fieldT hT⟩
  | 3, _, hT | 4, _, hT | 6, _, hT | 7, _, hT | 12, _, hT => rintro ⟨⟩; exact ⟨rfl, packXKk_of_fields hT rfl⟩
  | _ + 16, hlt, _ => omega

/-! ### The rows of the opcode map -/

/-- The instruction of `i`'s row whose operands are the fields of a word. -/
def Instr.withFieldsOf (w : Word) : Instr → Instr
  | .cls => .cls
  | .ret => .ret
  | .jp _ => .jp (fieldNnn w)
  | .call _ => .call (fieldNnn w)
  | .seVxKk _ _ => .seVxKk (fieldX w) (fieldKk w)
  | .sneVxKk _ _ => .sneVxKk (fieldX w) (fieldKk w)
  | .seVxVy _ _ => .seVxVy (fieldX w) (fieldY w)
  | .ldVxKk _ _ => .ldVxKk (fieldX w) (fieldKk w)
  | .addVxKk _ _ => .addVxKk (fieldX w) (fieldKk w)
  | .ldVxVy _ _ => .ldVxVy (fieldX w) (fieldY w)
  | .or _ _ => .or (fieldX w) (fieldY w)
  | .and _ _ => .and (fieldX w) (fieldY w)
  | .xor _ _ => .xor (fieldX w) (fieldY w)
  | .addVxVy _ _ => .addVxVy (fieldX w) (fieldY w)
  | .sub _ _ => .sub (fieldX w) (fieldY w)
  | .shr _ _ => .shr (fieldX w) (fieldY w)
  | .subn _ _ => .subn (fieldX w) (fieldY w)
  | .shl _ _ => .shl (fieldX w) (fieldY w)
  | .sneVxVy _ _ => .sneVxVy (fieldX w) (fieldY w)
  | .ldINnn _ => .ldINnn (fieldNnn w)
  | .jpV0Nnn _ => .jpV0Nnn (fieldNnn w)
  | .rnd _ _ => .rnd (fieldX w) (fieldKk w)
  | .drw _ _ _ => .drw (fieldX w) (fieldY w) (fieldN w)
  | .skp _ => .skp (fieldX w)
  | .sknp _ => .sknp (fieldX w)
  | .ldVxDt _ => .ldVxDt (fieldX w)
  | .ldVxK _ => .ldVxK (fieldX w)
  | .ldDtVx _ => .ldDtVx (fieldX w)
  | .ldStVx _ => .ldStVx (fieldX w)
  | .addIVx _ => .addIVx (fieldX w)
  | .ldFVx _ => .ldFVx (fieldX w)
  | .ldBVx _ => .ldBVx (fieldX w)
  | .ldMemVx _ => .ldMemVx (fieldX w)
  | .ldVxMem _ => .ldVxMem (fieldX w)

theorem opcodeRow_withFieldsOf (i : Instr) (w : Word) : opcodeRow (i.withFieldsOf w) = opcodeRow i := by
  cases i <;> rfl

end Sys2Proof

namespace Sys2Proof.Machine

theorem encoding_of_topNibble {p : Word} {build : Word → Instr} (hp : BitVec.ofNat 16 (fieldT p * 4096) = p)
    (hdecode : ∀ w, fieldT w = fieldT p → decodeWord w = .ok (build w)) : Encoding 0xF000 p build :=
  hp ▸ encoding_of_fieldT (fieldT_lt p) hdecode

theorem encoding_of_outerNibbles {p : Word} {build : Word → Instr}
    (hp : BitVec.ofNat 16 (fieldT p * 4096 + fieldN p) = p)
    (hdecode : ∀ w, fieldT w = fieldT p → fieldN w = fieldN p → decodeWord w = .ok (build w)) :
    Encoding 0xF00F p build :=
  hp ▸ encoding_of_fieldT_fieldN (fieldT_lt p) (fieldN_lt p) hdecode

theorem encoding_of_topNibble_lowByte {p : Word} {build : Word → Instr}
    (hp : BitVec.ofNat 16 (fieldT p * 4096 + (fieldKk p).toNat) = p)
    (hdecode : ∀ w, fieldT w = fieldT p → fieldKk w = fieldKk p → decodeWord w = .ok (build w)) :
    Encoding 0xF0FF p build :=
  hp ▸ encoding_of_fieldT_fieldKk (fieldT_lt p) (fieldKk p).isLt fun w hT hKk =>
    hdecode w hT (hKk.trans (BitVec.ofNat_toNat 8 (fieldKk p)))

/-- Every row of the opcode map, by the bits it fixes. -/
theorem encoding_withFieldsOf (i : Instr) :
    Encoding (opcodeRow i).mask (opcodeRow i).pattern (fun w => i.withFieldsOf w) := by
  cases i with
  | cls | ret => exact encoding_of_word rfl
  | jp nnn | call nnn | ldINnn nnn | jpV0Nnn nnn | seVxKk x kk | sneVxKk x kk | ldVxKk x kk | addVxKk x kk | rnd x kk
  | drw x y n =>
    simp only [opcodeRow]
    refine encoding_of_topNibble (by decide) fun w hT => ?_
    simp only [decodeWord, hT]
    rfl
  | seVxVy x y | sneVxVy x y | ldVxVy x y | or x y | and x y | xor x y | addVxVy x y | sub x y | shr x y | subn x y
  | shl x y =>
    simp only [opcodeRow]
    refine encoding_of_outerNibbles (by decide) fun w hT hN => ?_
    simp only [decodeWord, decodeAlu, hT, hN]
    rfl
  | skp x | sknp x | ldVxDt x | ldVxK x | ldDtVx x | ldStVx x | addIVx x | ldFVx x | ldBVx x | ldMemVx x | ldVxMem x =>
    simp only [opcodeRow]
    refine encoding_of_topNibble_lowByte (by decide) fun w hT hKk => ?_
    simp only [decodeWord, decodeKey, decodeMisc, hT, hKk]
    rfl

end Sys2Proof.Machine

namespace Sys2Proof

open Sys2Proof.Machine

theorem decodeWord_of_accepts {i : Instr} {w : Word} (h : (opcodeRow i).accepts w = true) :
    decodeWord w = .ok (i.withFieldsOf w) :=
  encoding_withFieldsOf i w (of_decide_eq_true h)

theorem opcodeRow_accepts_encode (i : Instr) : Laws.EncodingRow.Statement i := by
  cases i with
  | cls => exact Laws.EncodingRow.cls
  | ret => exact Laws.EncodingRow.ret
  | jp nnn => exact Laws.EncodingRow.jp nnn
  | call nnn => exact Laws.EncodingRow.call nnn
  | seVxKk x kk => exact Laws.EncodingRow.seVxKk x kk
  | sneVxKk x kk => exact Laws.EncodingRow.sneVxKk x kk
  | seVxVy x y => exact Laws.EncodingRow.seVxVy x y
  | ldVxKk x kk => exact Laws.EncodingRow.ldVxKk x kk
  | addVxKk x kk => exact Laws.EncodingRow.addVxKk x kk
  | ldVxVy x y => exact Laws.EncodingRow.ldVxVy x y
  | or x y => exact Laws.EncodingRow.or x y
  | and x y => exact Laws.EncodingRow.and x y
  | xor x y => exact Laws.EncodingRow.xor x y
  | addVxVy x y => exact Laws.EncodingRow.addVxVy x y
  | sub x y => exact Laws.EncodingRow.sub x y
  | shr x y => exact Laws.EncodingRow.shr x y
  | subn x y => exact Laws.EncodingRow.subn x y
  | shl x y => exact Laws.EncodingRow.shl x y
  | sneVxVy x y => exact Laws.EncodingRow.sneVxVy x y
  | ldINnn nnn => exact Laws.EncodingRow.ldINnn nnn
  | jpV0Nnn nnn => exact Laws.EncodingRow.jpV0Nnn nnn
  | rnd x kk => exact Laws.EncodingRow.rnd x kk
  | drw x y n => exact Laws.EncodingRow.drw x y n
  | skp x => exact Laws.EncodingRow.skp x
  | sknp x => exact Laws.EncodingRow.sknp x
  | ldVxDt x => exact Laws.EncodingRow.ldVxDt x
  | ldVxK x => exact Laws.EncodingRow.ldVxK x
  | ldDtVx x => exact Laws.EncodingRow.ldDtVx x
  | ldStVx x => exact Laws.EncodingRow.ldStVx x
  | addIVx x => exact Laws.EncodingRow.addIVx x
  | ldFVx x => exact Laws.EncodingRow.ldFVx x
  | ldBVx x => exact Laws.EncodingRow.ldBVx x
  | ldMemVx x => exact Laws.EncodingRow.ldMemVx x
  | ldVxMem x => exact Laws.EncodingRow.ldVxMem x

theorem accepts_of_decodeWord {i : Instr} {w : Word} (h : decodeWord w = .ok i) : (opcodeRow i).accepts w = true := by
  obtain ⟨hwf, rfl⟩ := encodes_of_decodeWord h
  exact opcodeRow_accepts_encode i hwf

theorem opcodeRow_mem_opcodeTable (i : Instr) : opcodeRow i ∈ opcodeTable := by
  cases i <;> simp [opcodeTable, opcodeRow]

theorem exists_opcodeRow_of_mem {r : OpcodeRow} (h : r ∈ opcodeTable) : ∃ i, opcodeRow i = r := by
  simp only [opcodeTable, List.mem_append, List.mem_map] at h
  rcases h with ((⟨i, -, hi⟩ | ⟨i, -, hi⟩) | ⟨i, -, hi⟩) | ⟨i, -, hi⟩ <;> exact ⟨i, hi⟩

theorem exists_decodeWord_of_accepts {r : OpcodeRow} {w : Word} (hr : r ∈ opcodeTable) (h : r.accepts w = true) :
    ∃ i, decodeWord w = .ok i ∧ opcodeRow i = r := by
  obtain ⟨i, rfl⟩ := exists_opcodeRow_of_mem hr
  exact ⟨_, decodeWord_of_accepts h, opcodeRow_withFieldsOf i w⟩

/-- One word in two rows would decode to an instruction of each. -/
theorem row_eq_of_accepts {r q : OpcodeRow} {w : Word} (hr : r ∈ opcodeTable) (hq : q ∈ opcodeTable)
    (hrw : r.accepts w = true) (hqw : q.accepts w = true) : r = q := by
  obtain ⟨i, hi, rfl⟩ := exists_decodeWord_of_accepts hr hrw
  obtain ⟨j, hj, rfl⟩ := exists_decodeWord_of_accepts hq hqw
  cases hi.symm.trans hj
  rfl

theorem opcodeTable_nodup : opcodeTable.Nodup := by decide

theorem opcodeTable_disjoint :
    opcodeTable.Pairwise fun r q => ∀ w, ¬(r.accepts w = true ∧ q.accepts w = true) := by
  refine List.Pairwise.imp_of_mem (fun hr hq hne w ⟨hrw, hqw⟩ => ?_) opcodeTable_nodup
  exact hne (row_eq_of_accepts hr hq hrw hqw)

end Sys2Proof

namespace Sys2Proof.Proofs

open Sys2Proof Sys2Proof.Machine

/-- Settles O1: the decoder after the encoder, on the word and on its two bytes. -/
theorem decodeOfEncodeIsTheInstruction : Obligations.DecodeOfEncodeIsTheInstruction := by
  unfold Obligations.DecodeOfEncodeIsTheInstruction
  exact fun i hi => ⟨decodeWord_encode hi, decode_encodeBytes_append hi⟩

/-- Settles O2: the encoder after the decoder. -/
theorem encodeOfDecodedIsTheWord : Obligations.EncodeOfDecodedIsTheWord := by
  unfold Obligations.EncodeOfDecodedIsTheWord
  exact fun w i h => encodes_of_decodeWord h

/-- Settles O4: a row's words decode to its own constructor, and a decoded word is an encoding, which its row accepts. -/
theorem opcodeMapSelectsTheDecodedInstruction : Obligations.OpcodeMapSelectsTheDecodedInstruction := by
  unfold Obligations.OpcodeMapSelectsTheDecodedInstruction
  exact ⟨rfl, opcodeTable_disjoint, fun w i h => ⟨opcodeRow_mem_opcodeTable i, accepts_of_decodeWord h⟩,
    fun w r => exists_decodeWord_of_accepts⟩

/-- Settles O5, by running the decoder on each word. -/
theorem sampleWordsDecode : Obligations.SampleWordsDecode := by
  unfold Obligations.SampleWordsDecode
  decide

end Sys2Proof.Proofs
end

section
/-! PROOFS. The frame of each named update, and everything an instruction can answer: it completes, writing its own parts of the
state only, or it raises a fault that 60_exceptions.md R250 gives it. The whole-machine rules about `exec` follow
(10_state.md R22 to R34; 20_memory.md R60, R67). -/

namespace Sys2Proof.Machine

open Config

/-! ### Writes to memory leave every other byte -/

theorem Memory.read_cons_of_ne {img : Image} {a c : Nat} (h : a ≠ c) (b : Byte) (m : Memory) :
    Memory.read img (Memory.cons img a b m) c = Memory.read img m c := by
  unfold Memory.cons
  split
  · rfl
  · rw [Memory.read_cons, if_neg h]

theorem Memory.read_write_of_ne {img : Image} (m : Memory) {a c : Nat} (h : a ≠ c) (b : Byte) :
    Memory.read img (Memory.write img m a b) c = Memory.read img m c := by
  induction m with
  | nil => exact Memory.read_cons_of_ne h b []
  | cons p m ih =>
    obtain ⟨k, d⟩ := p
    unfold Memory.write
    split
    · exact Memory.read_cons_of_ne h b _
    · split
      · next _ hak => rw [Memory.read_cons_of_ne h, Memory.read_cons, if_neg (hak ▸ h)]
      · rw [Memory.read_cons, Memory.read_cons, ih]

theorem Memory.read_writeBytes_outside {img : Image} (m : Memory) {a c : Nat} {bs : List Byte}
    (h : c < a ∨ a + bs.length ≤ c) : Memory.read img (Memory.writeBytes img m a bs) c = Memory.read img m c := by
  induction bs generalizing m a with
  | nil => rfl
  | cons b bs ih =>
    rw [List.length_cons] at h
    rw [Memory.writeBytes, ih _ (by omega), Memory.read_write_of_ne m (by omega)]

/-! ### Frames of the other updates -/

theorem UnchangedExcept.refl (ps : List Part) (s : State) : UnchangedExcept ps s s :=
  unchangedExcept_pc_hint ps s s.pc s.hint

theorem unchangedExcept_stack (s : State) (stack : Vector Word 16) (sp : Fin 17) :
    UnchangedExcept [.stack] s { s with stack := stack, sp := sp } :=
  ⟨fun _ _ => rfl, fun _ => rfl, fun h => absurd List.mem_cons_self h, fun _ => rfl, fun _ => rfl, fun _ _ => rfl,
    fun _ => rfl, fun _ => rfl, fun _ => rfl, fun _ => rfl, fun _ => rfl, rfl, rfl, rfl⟩

theorem unchangedExcept_hook_lastEdge (s : State) (hook : Hook) (e : Option Edge) :
    UnchangedExcept [.hook, .lastEdge] s { s with hook := hook, lastEdge := e } :=
  ⟨fun _ _ => rfl, fun _ => rfl, fun _ => ⟨rfl, rfl⟩, fun _ => rfl, fun _ => rfl, fun _ _ => rfl, fun _ => rfl,
    fun _ => rfl, fun h => absurd (by simp) h, fun h => absurd (by simp) h, fun _ => rfl, rfl, rfl, rfl⟩

theorem unchangedExcept_draws {ps : List Part} (hps : Part.draws ∈ ps) (s : State) (n : Nat) :
    UnchangedExcept ps s { s with draws := n } :=
  ⟨fun _ _ => rfl, fun _ => rfl, fun _ => ⟨rfl, rfl⟩, fun _ => rfl, fun _ => rfl, fun _ _ => rfl, fun _ => rfl,
    fun _ => rfl, fun _ => rfl, fun _ => rfl, fun h => absurd hps h, rfl, rfl, rfl⟩

theorem unchangedExcept_storeBytes (s : State) (a : Nat) (bs : List Byte) :
    UnchangedExcept [.mem a bs.length] s (s.storeBytes a bs) :=
  ⟨fun _ _ => rfl, fun _ => rfl, fun _ => ⟨rfl, rfl⟩, fun _ => rfl, fun _ => rfl,
    fun _ hc => Memory.read_writeBytes_outside s.mem (hc a bs.length List.mem_cons_self),
    fun _ => rfl, fun _ => rfl, fun _ => rfl, fun _ => rfl, fun _ => rfl, rfl, rfl, rfl⟩

theorem unchangedExcept_v {ps : List Part} {s : State} {v : Vector Byte 16}
    (hv : ∀ y, Part.v y ∉ ps → State.getV { s with v := v } y = s.getV y) : UnchangedExcept ps s { s with v := v } :=
  ⟨hv, fun _ => rfl, fun _ => ⟨rfl, rfl⟩, fun _ => rfl, fun _ => rfl, fun _ _ => rfl, fun _ => rfl,
    fun _ => rfl, fun _ => rfl, fun _ => rfl, fun _ => rfl, rfl, rfl, rfl⟩

theorem unchangedExcept_loadRegs (s : State) (a : Nat) (x : Reg) :
    UnchangedExcept (((List.finRange 16).filter fun j => j.val ≤ x.val).map Part.v) s (s.loadRegs a x) := by
  refine unchangedExcept_v fun y hy => (s.getV_loadRegs a x y).trans (if_neg fun hyx => hy ?_)
  exact List.mem_map_of_mem (List.mem_filter.mpr ⟨List.mem_finRange y, decide_eq_true hyx⟩)

/-! ### What an instruction can answer -/

/-- The parts of the state that an instruction may write when it runs in `s`. -/
def partsWritten (s : State) : Instr → List Part
  | .cls => [.disp]
  | .ret | .call _ => [.stack]
  | .ldVxKk x _ | .addVxKk x _ | .ldVxVy x _ | .or x _ | .and x _ | .xor x _ | .ldVxDt x => [.v x]
  | .addVxVy x _ | .sub x _ | .subn x _ | .shr x _ | .shl x _ => [.v x, .v 15]
  | .rnd x _ => [.v x, .draws]
  | .drw _ _ _ => [.v 15, .disp]
  | .ldINnn _ | .addIVx _ | .ldFVx _ => [.i]
  | .ldDtVx _ => [.dt]
  | .ldStVx _ => [.st]
  | .ldVxK _ => [.hook, .lastEdge]
  | .ldBVx _ => [.mem s.i.toNat 3]
  | .ldMemVx x => [.mem s.i.toNat (x.val + 1)]
  | .ldVxMem x => ((List.finRange 16).filter fun j => j.val ≤ x.val).map .v
  | .jp _ | .jpV0Nnn _ | .seVxKk _ _ | .sneVxKk _ _ | .seVxVy _ _ | .sneVxVy _ _ | .skp _ | .sknp _ => []

/-- Said once, so that no proof compares the two lists by computing them. -/
theorem partsWritten_ldVxMem (s : State) (x : Reg) :
    partsWritten s (.ldVxMem x) = ((List.finRange 16).filter fun j => j.val ≤ x.val).map .v := by
  rw [partsWritten]

/-- Everything an instruction can do when it completes: it writes its own parts only, memory stays canonical, and `PC` goes where
a directive takes it. -/
structure Completes (i : Instr) (s t : State) : Prop where
  frame : UnchangedExcept (partsWritten s i) s t
  memWf : s.MemWf → t.MemWf
  pc_cases : t.pc = s.pc + 2 ∨ t.pc = s.pc + 4 ∨ t.pc = s.pc ∨ 0x200 ≤ t.pc.toNat ∧ t.pc.toNat < 0x1000

theorem State.MemWf.congr {s t : State} (hmem : t.mem = s.mem) (hparams : t.params = s.params) (h : s.MemWf) : t.MemWf := by
  rwa [State.MemWf, State.image_eq, hmem, hparams]

/-- The instruction completes, or raises a fault of its own. -/
def Answers (i : Instr) (s : State) (r : Result) : Prop :=
  (∃ t, r = .next t ∧ Completes i s t) ∨ ∃ f, r = .fault f ∧ faultsOf i f

/-- From the state `u` that the instruction's writes leave. -/
theorem answers_complete {i : Instr} {s u : State} {dir : Directive} (h : Hint)
    (hjump : ∀ a, dir = .jump a → faultsOf i (.jumpOutOfBounds a)) (hframe : UnchangedExcept (partsWritten s i) s u)
    (hpc : u.pc = s.pc) (hwf : s.MemWf → u.MemWf) : Answers i s (complete dir h u) := by
  cases e : complete dir h u with
  | next t =>
    obtain ⟨pc, rfl, hdir⟩ := complete_cases e
    refine .inl ⟨_, rfl, hframe.trans (unchangedExcept_pc_hint _ _ _ _), hwf, ?_⟩
    rw [hpc] at hdir
    rcases hdir with ⟨hpc', -⟩ | ⟨hpc', -⟩ | ⟨hpc', -⟩ | ⟨a, -, hlow, hhigh, hpc'⟩
    · exact .inl hpc'
    · exact .inr (.inl hpc')
    · exact .inr (.inr (.inl hpc'))
    · have ha : pc.toNat = a := by
        rw [hpc', BitVec.toNat_ofNat]
        omega
      exact .inr (.inr (.inr (ha ▸ ⟨hlow, hhigh⟩)))
  | fault f =>
    obtain ⟨a, hdir, rfl, -⟩ := complete_fault e
    exact .inr ⟨_, rfl, hjump a hdir⟩
  | refused r => exact absurd e (complete_not_refused dir h u r)

theorem answers_next {i : Instr} {s u : State} (h : Hint) (hframe : UnchangedExcept (partsWritten s i) s u)
    (hpc : u.pc = s.pc) (hwf : s.MemWf → u.MemWf) : Answers i s (complete .next h u) :=
  answers_complete h nofun hframe hpc hwf

theorem answers_skip (i : Instr) (s : State) (c : Bool) : Answers i s (complete (skipIf c) .none s) := by
  refine answers_complete .none (fun a hjump => ?_) (.refl _ s) rfl id
  rcases skipIf_cases c with hskip | hnext
  · cases hskip.symm.trans hjump
  · cases hnext.symm.trans hjump

theorem answers_checkAccess {i : Instr} {s : State} {a n : Nat} {body : Result}
    (hfault : ∀ b, faultsOf i (.memoryBounds b)) (hbody : n = 0 ∨ a + n ≤ memSize → Answers i s body) :
    Answers i s (checkAccess a n body) := by
  rcases checkAccess_cases a n body with ⟨hinside, hbody'⟩ | ⟨-, -, hfault'⟩
  · rw [hbody']
    exact hbody hinside
  · exact .inr ⟨_, hfault', hfault _⟩

theorem answers_store {i : Instr} {s : State} {bs : List Byte} {n : Nat} (hn : bs.length = n)
    (hframe : UnchangedExcept [.mem s.i.toNat n] s (s.storeBytes s.i.toNat bs) →
      UnchangedExcept (partsWritten s i) s (s.storeBytes s.i.toNat bs))
    (hfault : ∀ b, faultsOf i (.memoryBounds b)) (hne : n ≠ 0) :
    Answers i s (checkAccess s.i.toNat n (complete .next .none (s.storeBytes s.i.toNat bs))) := by
  subst hn
  refine answers_checkAccess hfault fun hinside => answers_next .none (hframe (unchangedExcept_storeBytes _ _ _)) rfl ?_
  exact fun hwf => State.wf_storeBytes hwf (hinside.resolve_left hne)

/-- By what the instruction checks first: nothing, a digit, the depth of the stack, or the bounds of its access. -/
theorem exec_answers (i : Instr) (s : State) : Answers i s (exec i s) := by
  cases i with
  | cls => exact answers_next .clear (unchangedExcept_disp List.mem_cons_self s _) rfl id
  | ret =>
    by_cases h : 0 < s.sp.val
    · rw [exec_ret h]
      exact answers_complete .none (fun _ _ => trivial) (unchangedExcept_stack s _ _) rfl id
    · exact .inr ⟨_, exec_ret_fault (by omega), trivial⟩
  | call nnn =>
    by_cases h : s.sp.val < 16
    · rw [exec_call h]
      exact answers_complete .none (fun _ _ => trivial) (unchangedExcept_stack s _ _) rfl id
    · exact .inr ⟨_, exec_call_fault (by omega), trivial⟩
  | jp nnn | jpV0Nnn nnn =>
    simp only [exec_jp, exec_jpV0Nnn]
    exact answers_complete .none (fun _ _ => trivial) (.refl _ s) rfl id
  | seVxKk x kk | sneVxKk x kk | seVxVy x y | sneVxVy x y => exact answers_skip _ s _
  | skp x =>
    by_cases h : (s.getV x).toNat < 16
    · rw [exec_skp h]
      exact answers_skip _ s _
    · exact .inr ⟨_, exec_skp_fault h, trivial⟩
  | sknp x =>
    by_cases h : (s.getV x).toNat < 16
    · rw [exec_sknp h]
      exact answers_skip _ s _
    · exact .inr ⟨_, exec_sknp_fault h, trivial⟩
  | ldVxKk x kk | addVxKk x kk | ldVxVy x y | or x y | and x y | xor x y | ldVxDt x =>
    exact answers_next .none (unchangedExcept_setV List.mem_cons_self s _) rfl id
  | addVxVy x y | sub x y | subn x y | shr x y | shl x y =>
    exact answers_next .none (unchangedExcept_setResultThenFlag s x _) rfl id
  | rnd x kk =>
    exact answers_next .none ((unchangedExcept_setV List.mem_cons_self s _).trans
      (unchangedExcept_draws (by simp) (s.setV x _) _)) rfl id
  | drw x y n =>
    exact answers_checkAccess (fun _ => trivial) fun _ => answers_next .draw
      ((unchangedExcept_setV List.mem_cons_self s _).trans (unchangedExcept_disp (by simp) (s.setV vf _) _)) rfl id
  | ldINnn nnn | addIVx x => exact answers_next .none (unchangedExcept_i s _) rfl id
  | ldFVx x =>
    by_cases h : (s.getV x).toNat < 16
    · rw [exec_ldFVx h]
      exact answers_next .none (unchangedExcept_i s _) rfl id
    · exact .inr ⟨_, exec_ldFVx_fault h, trivial⟩
  | ldDtVx x => exact answers_next .none (unchangedExcept_dt List.mem_cons_self s _) rfl id
  | ldStVx x => exact answers_next _ (unchangedExcept_st List.mem_cons_self s _) rfl id
  | ldVxK x =>
    rw [exec_ldVxK]
    exact answers_complete .wait nofun (unchangedExcept_hook_lastEdge s _ _) rfl id
  | ldBVx x => exact answers_store (length_bcdBytes _) id (fun _ => trivial) (by decide)
  | ldMemVx x => exact answers_store (State.length_regBytes s x) id (fun _ => trivial) (Nat.succ_ne_zero _)
  | ldVxMem x =>
    exact answers_checkAccess (fun _ => trivial) fun _ => answers_next .none
      (partsWritten_ldVxMem s x ▸ unchangedExcept_loadRegs s _ x) (State.loadRegs_pc s _ x)
      (State.MemWf.congr (State.loadRegs_mem s _ x) (State.loadRegs_params s _ x))

theorem completes_of_exec {i : Instr} {s t : State} (e : exec i s = .next t) : Completes i s t := by
  rcases exec_answers i s with ⟨u, hnext, hu⟩ | ⟨f, hfault, -⟩
  · cases hnext.symm.trans e
    exact hu
  · cases hfault.symm.trans e

theorem faultsOf_of_exec {i : Instr} {s : State} {f : Fault} (e : exec i s = .fault f) : faultsOf i f := by
  rcases exec_answers i s with ⟨u, hnext, -⟩ | ⟨g, hfault, hg⟩
  · cases hnext.symm.trans e
  · cases hfault.symm.trans e
    exact hg

theorem exec_not_refused (i : Instr) (s : State) (r : Refusal) : exec i s ≠ .refused r := by
  intro e
  rcases exec_answers i s with ⟨u, hnext, -⟩ | ⟨g, hfault, -⟩
  · cases hnext.symm.trans e
  · cases hfault.symm.trans e

/-! ### Which instructions may write a part -/

section
variable {s : State} {i : Instr}

theorem mem_regsWritten_of_v {r : Reg} : Part.v r ∈ partsWritten s i → r ∈ regsWritten i := by
  cases i <;> simp [partsWritten, regsWritten]

theorem store_of_mem_partsWritten {a n : Nat} :
    Part.mem a n ∈ partsWritten s i →
      ((∃ x, i = .ldBVx x) ∨ ∃ x, i = .ldMemVx x) ∧ a = s.i.toNat ∧ n = accessLength i := by
  cases i <;> simp [partsWritten, accessLength]

theorem of_disp_mem_partsWritten : Part.disp ∈ partsWritten s i → i = .cls ∨ ∃ x y n, i = .drw x y n := by
  cases i <;> simp [partsWritten]

theorem of_i_mem_partsWritten :
    Part.i ∈ partsWritten s i → (∃ nnn, i = .ldINnn nnn) ∨ (∃ x, i = .addIVx x) ∨ ∃ x, i = .ldFVx x := by
  cases i <;> simp [partsWritten]

theorem of_stack_mem_partsWritten : Part.stack ∈ partsWritten s i → (∃ nnn, i = .call nnn) ∨ i = .ret := by
  cases i <;> simp [partsWritten]

theorem of_dt_mem_partsWritten : Part.dt ∈ partsWritten s i → ∃ x, i = .ldDtVx x := by
  cases i <;> simp [partsWritten]

theorem of_st_mem_partsWritten : Part.st ∈ partsWritten s i → ∃ x, i = .ldStVx x := by
  cases i <;> simp [partsWritten]

theorem of_hook_mem_partsWritten : Part.hook ∈ partsWritten s i → ∃ x, i = .ldVxK x := by
  cases i <;> simp [partsWritten]

theorem of_lastEdge_mem_partsWritten : Part.lastEdge ∈ partsWritten s i → ∃ x, i = .ldVxK x := by
  cases i <;> simp [partsWritten]

theorem keys_notMem_partsWritten : Part.keys ∉ partsWritten s i := by
  cases i <;> simp [partsWritten]

end

end Sys2Proof.Machine

namespace Sys2Proof.Proofs

open Sys2Proof Sys2Proof.Machine

/-- Settles O53: the registers among the parts an instruction writes are its "writes" column. -/
theorem registersAreWrittenOnlyAsListed : Obligations.RegistersAreWrittenOnlyAsListed := by
  unfold Obligations.RegistersAreWrittenOnlyAsListed
  intro i s t r e hne
  obtain ⟨hv, -⟩ := (completes_of_exec e).frame
  exact mem_regsWritten_of_v (not_imp_comm.mp (hv r) hne)

/-- Settles O54: a byte outside every part that an instruction writes is kept, and only the stores write a part of memory. -/
theorem memoryIsWrittenOnlyThroughIndex : Obligations.MemoryIsWrittenOnlyThroughIndex := by
  unfold Obligations.MemoryIsWrittenOnlyThroughIndex
  intro i s t a _ e hne
  obtain ⟨-, -, -, -, -, hmem, -⟩ := (completes_of_exec e).frame
  by_contra hnot
  refine hne (hmem a fun lo n hpart => ?_)
  obtain ⟨hstore, rfl, rfl⟩ := store_of_mem_partsWritten hpart
  by_contra hin
  exact hnot ⟨hstore, by omega, by omega⟩

/-- Settles O55: each special part is among the parts that the named instructions write, and the keys are among none. -/
theorem specialStateIsWrittenOnlyAsListed : Obligations.SpecialStateIsWrittenOnlyAsListed := by
  unfold Obligations.SpecialStateIsWrittenOnlyAsListed
  intro i s t e
  obtain ⟨-, hi, hstack, hdt, hst, -, hdisp, hkeys, hedge, hhook, -, hfault, -, -⟩ := (completes_of_exec e).frame
  refine ⟨fun h => of_disp_mem_partsWritten (not_imp_comm.mp hdisp h), fun h => of_i_mem_partsWritten (not_imp_comm.mp hi h),
    fun h => of_stack_mem_partsWritten (not_imp_comm.mp hstack (not_and_or.mpr h)),
    fun h => of_dt_mem_partsWritten (not_imp_comm.mp hdt h), fun h => of_st_mem_partsWritten (not_imp_comm.mp hst h), ?_,
    hkeys keys_notMem_partsWritten, hfault⟩
  rintro (h | h)
  · exact of_hook_mem_partsWritten (not_imp_comm.mp hhook h)
  · exact of_lastEdge_mem_partsWritten (not_imp_comm.mp hedge h)

/-- Settles O57: a fault is one of the two things an instruction can answer, and then it is its own. -/
theorem instructionsRaiseOnlyTheListedFaults : Obligations.InstructionsRaiseOnlyTheListedFaults := by
  unfold Obligations.InstructionsRaiseOnlyTheListedFaults
  exact fun i s f => faultsOf_of_exec

end Sys2Proof.Proofs
end

section
/-! PROOFS. The step of the executor and of the machine: it is never refused, and each way it can go keeps the invariant
(40_executor.md R121, R127; 10_state.md R25; 41_control_flow.md R140, R142). -/

namespace Sys2Proof.Machine

open Config

/-! ### No step is refused -/

theorem executorStep_not_refused (s : State) (r : Refusal) : executorStep s ≠ .refused r := by
  cases hf : s.fault with
  | some f => rw [executorStep_halted hf]; exact nofun
  | none =>
    cases hh : s.hook with
    | waitKey x => rw [executorStep_waiting hf hh]; exact nofun
    | none =>
      cases hw : fetch s with
      | error f => rw [executorStep_fetch_error ⟨hf, hh⟩ hw]; exact nofun
      | ok w =>
        rw [executorStep_fetched ⟨hf, hh⟩ hw]
        cases hd : decodeWord w with
        | error e => rw [decodeAndExec_error hd]; exact nofun
        | ok i => rw [decodeAndExec, hd]; exact exec_not_refused i s r

/-- A scheduled call of `step()` leaves what the executor's step answers, or what a raised fault leaves. -/
theorem stepEvent_cases (s : State) :
    (∃ t, executorStep s = .next t ∧ stepEvent s = .next t) ∨
      ∃ f, executorStep s = .fault f ∧ stepEvent s = .next (s.afterFault f) := by
  unfold stepEvent
  cases e : executorStep s with
  | next t => exact .inl ⟨t, rfl, rfl⟩
  | fault f => exact .inr ⟨f, rfl, rfl⟩
  | refused r => exact absurd e (executorStep_not_refused s r)

/-- Every event goes on to a next state: a raised fault is no end of the execution. -/
theorem exists_applyEvent (e : Event) (s : State) : ∃ t, applyEvent e s = .next t := by
  cases e with
  | step =>
    rcases stepEvent_cases s with ⟨t, -, ht⟩ | ⟨f, -, hf⟩
    · exact ⟨t, ht⟩
    · exact ⟨_, hf⟩
  | tickDT | tickST | setKey i v | toggleKey i | setAll bits => exact ⟨_, rfl⟩

theorem step_of_nil {s : State} (h : s.schedule = []) : step s = executorStep s := by
  rw [step, nextEvent, h]

theorem step_of_cons {s : State} {e : Event} {rest : List Event} (h : s.schedule = e :: rest) :
    step s = applyEvent e { s with schedule := rest } := by
  rw [step, nextEvent, h]

theorem step_not_refused (s : State) (r : Refusal) : step s ≠ .refused r := by
  cases h : s.schedule with
  | nil => rw [step_of_nil h]; exact executorStep_not_refused s r
  | cons e rest =>
    obtain ⟨t, ht⟩ := exists_applyEvent e { s with schedule := rest }
    rw [step_of_cons h, ht]
    exact nofun

/-! ### The invariant looks at five fields and the fault -/

theorem State.Inv.congr {s t : State} (h : s.Inv) (hmem : t.mem = s.mem) (hparams : t.params = s.params)
    (hpc : t.pc = s.pc) (hhook : t.hook = s.hook) (hstack : t.stack = s.stack) (hsp : t.sp = s.sp)
    (hfault : t.fault = s.fault) : t.Inv := by
  obtain ⟨v, i, pc, stack, sp, dt, st, mem, disp, keys, edge, hook, fault, params, hint, draws, schedule⟩ := t
  cases hmem; cases hparams; cases hpc; cases hhook; cases hstack; cases hsp; cases hfault
  exact ⟨h.mem_wf, h.pc_range, h.hook_pc, h.stack_range⟩

theorem State.Inv.setKey {s : State} (h : s.Inv) (i : Nat) (v : Bool) : (setKey i v s).Inv := by
  unfold Machine.setKey
  split
  · exact h.congr rfl rfl rfl rfl rfl rfl rfl
  · exact h

theorem State.Inv.toggleKey {s : State} (h : s.Inv) (i : Nat) : (toggleKey i s).Inv := by
  unfold Machine.toggleKey
  split
  · exact h.congr rfl rfl rfl rfl rfl rfl rfl
  · exact h

/-! ### A fault and a pending hook -/

/-- The halted machine is only held to its memory. -/
theorem State.inv_recordFault (s : State) (f : Fault) : (s.recordFault f).Inv :=
  ⟨s.wf_recordFault f, nofun, nofun, nofun⟩

theorem State.Inv.afterFault {s : State} (h : s.Inv) (f : Fault) : (s.afterFault f).Inv := by
  unfold State.afterFault
  split
  · exact h
  · exact s.inv_recordFault f

theorem State.Inv.completeHook {s : State} (h : s.Inv) (hfault : s.fault = none) {x : Reg} (hhook : s.hook = .waitKey x)
    (k : Fin 16) : (completeHook x k s).Inv := by
  have hlow := (h.pc_range hfault).1
  have hhigh := h.hook_pc hfault (by rw [hhook]; exact nofun)
  refine ⟨h.mem_wf, fun _ => ?_, fun _ hnone => absurd rfl hnone, h.stack_range⟩
  show 0x200 ≤ (s.pc + 2).toNat ∧ (s.pc + 2).toNat ≤ 0x1002
  bv_omega

theorem State.Inv.serviceHook {s : State} (h : s.Inv) (hfault : s.fault = none) {x : Reg} (hhook : s.hook = .waitKey x) :
    (serviceHook x s).Inv := by
  unfold Machine.serviceHook
  split
  · exact h.completeHook hfault hhook _
  · exact h.congr rfl rfl rfl rfl rfl rfl rfl

/-! ### An instruction -/

/-- `PC` after an instruction that was fetched inside memory. -/
theorem Completes.pc_range {i : Instr} {s t : State} (h : Completes i s t) (hlow : 0x200 ≤ s.pc.toNat)
    (hfetch : s.pc.toNat + 1 < memSize) : 0x200 ≤ t.pc.toNat ∧ t.pc.toNat ≤ 0x1002 := by
  unfold memSize at hfetch
  rcases h.pc_cases with hpc | hpc | hpc | ⟨hjump, hjump'⟩
  · rw [hpc]; bv_omega
  · rw [hpc]; bv_omega
  · rw [hpc]; omega
  · omega

/-- Every held stack entry is an address that a `CALL` can push. -/
def HeldInRange (s : State) : Prop :=
  ∀ j : Fin 16, j.val < s.sp.val →
    0x202 ≤ (s.stack[j.val]'j.isLt).toNat ∧ (s.stack[j.val]'j.isLt).toNat ≤ 0x1000

theorem HeldInRange.call {s t : State} {nnn : Nnn} (h : HeldInRange s) (hlow : 0x200 ≤ s.pc.toNat)
    (hfetch : s.pc.toNat + 1 < memSize) (e : exec (.call nnn) s = .next t) : HeldInRange t := by
  obtain ⟨hsp, pc, -, -, rfl⟩ := exec_call_next e
  intro j hj
  by_cases hnew : j.val = s.sp.val
  · have hpushed : (s.stack.set s.sp.val (s.pc + 2) hsp)[j.val]'j.isLt = s.pc + 2 := by simp [hnew]
    rw [hpushed]
    unfold memSize at hfetch
    bv_omega
  · have hkept : (s.stack.set s.sp.val (s.pc + 2) hsp)[j.val]'j.isLt = s.stack[j.val]'j.isLt :=
      Vector.getElem_set_ne _ _ (Ne.symm hnew)
    rw [hkept]
    have hj' : j.val < s.sp.val + 1 := hj
    exact h j (by omega)

theorem HeldInRange.ret {s t : State} (h : HeldInRange s) (e : exec .ret s = .next t) : HeldInRange t := by
  obtain ⟨hsp, pc, -, -, -, rfl⟩ := exec_ret_next e
  intro j hj
  have hj' : j.val < s.sp.val - 1 := hj
  exact h j (by omega)

theorem HeldInRange.exec {i : Instr} {s t : State} (h : HeldInRange s) (hlow : 0x200 ≤ s.pc.toNat)
    (hfetch : s.pc.toNat + 1 < memSize) (e : exec i s = .next t) : HeldInRange t := by
  by_cases hpart : Part.stack ∈ partsWritten s i
  · rcases of_stack_mem_partsWritten hpart with ⟨nnn, rfl⟩ | rfl
    · exact h.call hlow hfetch e
    · exact h.ret e
  · obtain ⟨-, -, hstack, -⟩ := (completes_of_exec e).frame
    obtain ⟨hentries, hsp⟩ := hstack hpart
    unfold HeldInRange
    rw [hentries, hsp]
    exact h

/-- Only `Fx0A` arms the hook, and it keeps `PC`. -/
theorem pc_eq_of_hook_armed {i : Instr} {s t : State} (hhook : s.hook = .none) (e : exec i s = .next t)
    (hne : t.hook ≠ .none) : t.pc = s.pc := by
  obtain ⟨-, -, -, -, -, -, -, -, -, hkept, -⟩ := (completes_of_exec e).frame
  obtain ⟨x, rfl⟩ := of_hook_mem_partsWritten (not_imp_comm.mp hkept (hhook ▸ hne))
  cases (exec_ldVxK x s).symm.trans e
  rfl

theorem State.Inv.exec {i : Instr} {s t : State} (h : s.Inv) (hrun : Running s) (hfetch : s.pc.toNat + 1 < memSize)
    (e : exec i s = .next t) : t.Inv := by
  obtain ⟨hfault, hhook⟩ := hrun
  have hlow := (h.pc_range hfault).1
  have hc := completes_of_exec e
  refine ⟨hc.memWf h.mem_wf, fun _ => hc.pc_range hlow hfetch, fun _ hne => ?_,
    fun _ => HeldInRange.exec (h.stack_range hfault) hlow hfetch e⟩
  rw [pc_eq_of_hook_armed hhook e hne]
  unfold memSize at hfetch
  omega

/-! ### A step -/

theorem State.Inv.executorStep {s t : State} (h : s.Inv) (e : executorStep s = .next t) : t.Inv := by
  obtain ⟨hfault, ⟨x, hhook, rfl⟩ | ⟨hhook, hfetch, i, -, hexec⟩⟩ := executorStep_cases e
  · exact h.serviceHook hfault hhook
  · exact h.exec ⟨hfault, hhook⟩ hfetch hexec

theorem State.Inv.stepEvent {s t : State} (h : s.Inv) (e : stepEvent s = .next t) : t.Inv := by
  rcases stepEvent_cases s with ⟨u, hstep, hu⟩ | ⟨f, -, hf⟩
  · cases hu.symm.trans e
    exact h.executorStep hstep
  · cases hf.symm.trans e
    exact h.afterFault f

theorem State.Inv.applyEvent {s t : State} {ev : Event} (h : s.Inv) (e : applyEvent ev s = .next t) : t.Inv := by
  cases ev with
  | step => exact h.stepEvent e
  | tickDT | tickST | setAll bits => cases e; exact h.congr rfl rfl rfl rfl rfl rfl rfl
  | setKey i v => cases e; exact h.setKey i v
  | toggleKey i => cases e; exact h.toggleKey i

theorem State.Inv.step {s t : State} (h : s.Inv) (e : step s = .next t) : t.Inv := by
  rcases nextEvent_cases e with ⟨-, hstep⟩ | ⟨ev, rest, -, happly⟩
  · exact h.executorStep hstep
  · have hs : State.Inv { s with schedule := rest } := h.congr rfl rfl rfl rfl rfl rfl rfl
    exact hs.applyEvent happly

theorem State.Inv.stepCall {s : State} (h : s.Inv) : (stepCall s).1.Inv := by
  unfold Machine.stepCall
  cases e : Machine.executorStep s with
  | next t => exact h.executorStep e
  | fault f => exact h.afterFault f
  | refused r => exact h

end Sys2Proof.Machine

namespace Sys2Proof.Proofs

open Sys2Proof Sys2Proof.Machine

/-- Settles O51: by the ways a step can go. -/
theorem stepKeepsTheInvariant : Obligations.StepKeepsTheInvariant := by
  unfold Obligations.StepKeepsTheInvariant
  exact ⟨fun s t h e => h.step e, fun s h => h.stepCall⟩

/-- Settles O52: a running machine's step that completes has fetched inside memory, from where `PC` moves by at most 4 or jumps. -/
theorem instructionsRunFromProgramMemory : Obligations.InstructionsRunFromProgramMemory := by
  unfold Obligations.InstructionsRunFromProgramMemory
  intro s t h hrun e
  obtain ⟨hfault, ⟨x, hwait, -⟩ | ⟨-, hfetch, i, -, hexec⟩⟩ := executorStep_cases e
  · cases hrun.2.symm.trans hwait
  · have hlow := (h.pc_range hfault).1
    obtain ⟨hlow', hhigh'⟩ := (completes_of_exec hexec).pc_range hlow hfetch
    unfold Config.memSize at hfetch
    exact ⟨hlow, by omega, hlow', hhigh'⟩

/-- Settles O58: neither the executor's step nor an event is refused. -/
theorem noStepIsRefused : Obligations.NoStepIsRefused := by
  unfold Obligations.NoStepIsRefused
  exact step_not_refused

end Sys2Proof.Proofs
end

section
/-! PROOFS. Memory: a canonical list is known by what it reads; the stores and the load, byte by byte, and where an access leaves
memory; a fetch of bytes just stored or placed (20_memory.md R60, R62, R64, R67, R74; 43_index_memory.md R193 to R195). -/

namespace Sys2Proof.Machine

open Config

/-! ### The canonical form is determined by its bytes -/

theorem Memory.read_of_mem {img : Image} {m : Memory} (h : m.Pairwise fun p q => p.1 < q.1) {p : Host.Cell} (hp : p ∈ m) :
    Memory.read img m p.1 = p.2 := by
  induction m with
  | nil => cases hp
  | cons q m ih =>
    obtain ⟨hq, hm⟩ := List.pairwise_cons.mp h
    rcases List.mem_cons.mp hp with rfl | hp
    · rw [Memory.read_cons, if_pos rfl]
    · rw [Memory.read_cons, if_neg (hq p hp).ne]
      exact ih hm hp

theorem Memory.mem_of_read_ne {img : Image} {m : Memory} {a : Nat} (h : Memory.read img m a ≠ img a) :
    (a, Memory.read img m a) ∈ m := by
  induction m with
  | nil => exact absurd rfl h
  | cons p m ih =>
    obtain ⟨k, b⟩ := p
    rw [Memory.read_cons] at h ⊢
    by_cases hk : k = a
    · rw [if_pos hk, ← hk]
      exact List.mem_cons_self
    · rw [if_neg hk] at h ⊢
      exact List.mem_cons_of_mem _ (ih h)

/-- An entry of one memory says what the other reads there, which is not what an unlisted address reads as. -/
theorem Memory.subset_of_read_eq {img : Image} {m n : Memory} (hm : Memory.wf img m)
    (h : ∀ a, a < memSize → Memory.read img m a = Memory.read img n a) : m ⊆ n := by
  obtain ⟨hsorted, hentry⟩ := hm
  intro p hp
  obtain ⟨hinside, hlisted⟩ := hentry p hp
  have hread : Memory.read img n p.1 = p.2 := (h p.1 hinside).symm.trans (Memory.read_of_mem hsorted hp)
  have hmem : (p.1, Memory.read img n p.1) ∈ n := Memory.mem_of_read_ne (hread.symm ▸ hlisted)
  rwa [hread] at hmem

theorem Memory.eq_of_read_eq {img : Image} {m n : Memory} (hm : Memory.wf img m) (hn : Memory.wf img n)
    (h : ∀ a, a < memSize → Memory.read img m a = Memory.read img n a) : m = n := by
  have hnodup : ∀ {l : Memory}, Memory.wf img l → l.Nodup := fun hl => hl.1.imp fun hlt e => hlt.ne (congrArg Prod.fst e)
  have hperm : m.Perm n := (List.perm_ext_iff_of_nodup (hnodup hm) (hnodup hn)).mpr fun _ =>
    ⟨fun hp => Memory.subset_of_read_eq hm h hp, fun hp => Memory.subset_of_read_eq hn (fun a ha => (h a ha).symm) hp⟩
  exact hperm.eq_of_pairwise (fun _ _ _ _ hlt hgt => absurd hlt hgt.asymm) hm.1 hn.1

/-! ### The first address outside -/

theorem max_memSize_of_first {a k : Nat} (hk : memSize ≤ a + k) (hfirst : ∀ j, j < k → a + j < memSize) :
    max a memSize = a + k := by
  rcases Nat.eq_zero_or_pos k with rfl | hpos
  · exact max_eq_left hk
  · have hlast := hfirst (k - 1) (by omega)
    omega

/-- The access of every instruction is checked before anything else. -/
theorem exec_eq_checkAccess {i : Instr} (s : State) (h : accessLength i ≠ 0) :
    ∃ body, exec i s = checkAccess s.i.toNat (accessLength i) body := by
  cases i with
  | drw x y n => exact ⟨_, exec_drw x y n s⟩
  | ldBVx x => exact ⟨_, exec_ldBVx x s⟩
  | ldMemVx x => exact ⟨_, exec_ldMemVx x s⟩
  | ldVxMem x => exact ⟨_, exec_ldVxMem x s⟩
  | _ => exact absurd rfl h

theorem exec_memoryBounds {i : Instr} {s : State} (hlen : accessLength i ≠ 0) (h : memSize < s.i.toNat + accessLength i) :
    exec i s = .fault (.memoryBounds (max s.i.toNat memSize)) := by
  obtain ⟨body, hbody⟩ := exec_eq_checkAccess s hlen
  rw [hbody, checkAccess_fault hlen h]

/-! ### The stores and the load -/

theorem State.byteAt_storeBytes {s : State} (h : s.MemWf) {a : Nat} {bs : List Byte} (ha : a + bs.length ≤ memSize) {j : Nat}
    (hj : j < bs.length) : (s.storeBytes a bs).byteAt (a + j) = bs[j] := by
  have hin : a ≤ a + j ∧ a + j < a + bs.length := by omega
  refine (Memory.read_writeBytes h ha (a + j)).trans ?_
  simp [hj]

/-- A store inside memory that goes to the next instruction. -/
theorem exec_store {i : Instr} {s : State} {bs : List Byte} (h : s.MemWf) (hinside : s.i.toNat + bs.length ≤ memSize)
    (hexec : exec i s = checkAccess s.i.toNat bs.length (complete .next .none (s.storeBytes s.i.toNat bs))) :
    ∃ t, exec i s = .next t ∧ (∀ j (hj : j < bs.length), t.byteAt (s.i.toNat + j) = bs[j])
      ∧ Advances .none s t ∧ UnchangedExcept [.mem s.i.toNat bs.length] s t := by
  rw [checkAccess_ok (.inr hinside), complete_next] at hexec
  exact ⟨_, hexec, fun j hj => State.byteAt_storeBytes h hinside hj, ⟨rfl, rfl⟩,
    (unchangedExcept_storeBytes s _ bs).trans (unchangedExcept_pc_hint _ _ _ _)⟩

/-- A number below 256 as a byte, such as a digit or a key number. -/
theorem byteOfNat_toNat {n : Nat} (h : n < 256) : (BitVec.ofNat 8 n).toNat = n := by
  rw [BitVec.toNat_ofNat]
  exact Nat.mod_eq_of_lt h

theorem exec_ldMemVx_store {x : Reg} {s : State} (h : s.MemWf) (hinside : s.i.toNat + x.val < memSize) :
    ∃ t, exec (.ldMemVx x) s = .next t ∧ (∀ j : Reg, j.val ≤ x.val → t.byteAt (s.i.toNat + j.val) = s.getV j)
      ∧ Advances .none s t ∧ UnchangedExcept [.mem s.i.toNat (x.val + 1)] s t := by
  have hlen := State.length_regBytes s x
  obtain ⟨t, hexec, hbytes, hadvances, hframe⟩ :=
    exec_store (i := .ldMemVx x) h (bs := s.regBytes x) (by omega) (by rw [hlen, exec_ldMemVx])
  rw [hlen] at hframe
  refine ⟨t, hexec, fun j hj => ?_, hadvances, hframe⟩
  rw [hbytes j.val (by omega), State.getElem_regBytes]

/-- A step that leaves the registers as `u` has them and goes to the next instruction. -/
theorem exec_next_of_complete {i : Instr} {s u : State} {h : Hint} (hexec : exec i s = complete .next h u) (hpc : u.pc = s.pc) :
    ∃ t, exec i s = .next t ∧ (∀ j, t.getV j = u.getV j) ∧ Advances h s t := by
  rw [complete_next, hpc] at hexec
  exact ⟨_, hexec, fun _ => rfl, rfl, rfl⟩

/-! ### Fetching what is in memory -/

theorem fetch_eq_bigEndian {s : State} {a : Nat} (hpc : s.pc.toNat = a) (h : a + 1 < memSize) :
    fetch s = .ok (bigEndian (s.byteAt a) (s.byteAt (a + 1))) := by
  subst hpc
  exact fetch_ok h

theorem placeWord_pc_inside (s : State) (w : Word) : (placeWord s w).pc.toNat + 1 < memSize := by
  show (if memSize ≤ s.pc.toNat + 1 then (0x200 : Word) else s.pc).toNat + 1 < memSize
  split
  · decide
  · omega

theorem byteAt_placeWord {s : State} (h : s.MemWf) (w : Word) {j : Nat} (hj : j < 2) :
    (placeWord s w).byteAt ((placeWord s w).pc.toNat + j) = [highByte w, lowByte w][j] :=
  State.byteAt_storeBytes h (a := (placeWord s w).pc.toNat) (bs := [highByte w, lowByte w])
    (placeWord_pc_inside s w) hj

theorem fetch_placeWord {s : State} (h : s.MemWf) (w : Word) : fetch (placeWord s w) = .ok w := by
  have hhigh : (placeWord s w).byteAt (placeWord s w).pc.toNat = highByte w := byteAt_placeWord h w (j := 0) (by decide)
  have hlow : (placeWord s w).byteAt ((placeWord s w).pc.toNat + 1) = lowByte w := byteAt_placeWord h w (j := 1) (by decide)
  rw [fetch_ok (placeWord_pc_inside s w), hhigh, hlow, bigEndian_bytes]

theorem step_placeWord {s : State} (h : s.MemWf) {w : Word} {i : Instr} (hd : decodeWord w = .ok i) :
    step (placeWord s w) = exec i (placeWord s w) := by
  have hrun : Running (placeWord s w) := ⟨placeWord_fault s w, placeWord_hook s w⟩
  rw [step_of_nil (placeWord_schedule s w), executorStep_fetched hrun (fetch_placeWord h w), decodeAndExec, hd]

end Sys2Proof.Machine

namespace Sys2Proof

theorem decodeWord_of_decode {hi lo : Byte} {i : Instr} {rest : List Byte} (h : decode [hi, lo] = .ok (i, rest)) :
    decodeWord (bigEndian hi lo) = .ok i := by
  simp only [decode] at h
  split at h
  next e => cases h; exact e
  next => cases h

theorem decodeWord_of_decodeTableWord {nbits w : Nat} {i : Instr} (h : decodeTableWord nbits w = some i) :
    decodeWord (BitVec.ofNat 16 (w % 2 ^ nbits)) = .ok i := by
  unfold decodeTableWord at h
  dsimp only at h
  split at h
  next e =>
    cases h
    have hword := decodeWord_of_decode e
    rwa [bigEndian_bytes] at hword
  next => cases h

end Sys2Proof

namespace Sys2Proof.Proofs

open Sys2Proof Sys2Proof.Machine

/-- Settles O8: the placed word is fetched from memory in its canonical form. -/
theorem placedWordIsTheNextInstruction : Obligations.PlacedWordIsTheNextInstruction := by
  unfold Obligations.PlacedWordIsTheNextInstruction
  exact fun s w i hwf hd => step_placeWord hwf (decodeWord_of_decodeTableWord hd)

/-- Settles O32: the stored bytes are `V0..Vx`; an access of `x + 1` bytes that leaves memory is checked first. -/
theorem ldStoreWritesTheRegisters : Obligations.LdStoreWritesTheRegisters := by
  unfold Obligations.LdStoreWritesTheRegisters
  refine ⟨encoding_withFieldsOf (.ldMemVx 0), fun x s => ⟨exec_ldMemVx_store, fun houtside => ?_⟩⟩
  exact exec_memoryBounds (i := .ldMemVx x) (Nat.succ_ne_zero _) (Nat.lt_succ_of_le houtside)

/-- Settles O31: the stored bytes are the three digits, each below 10. -/
theorem ldBcdStoresThreeDigits : Obligations.LdBcdStoresThreeDigits := by
  unfold Obligations.LdBcdStoresThreeDigits
  refine ⟨encoding_withFieldsOf (.ldBVx 0), fun x s => ⟨fun hwf hinside => ?_, fun houtside => ?_⟩⟩
  · obtain ⟨t, hexec, hbytes, hadvances, hframe⟩ :=
      exec_store (i := .ldBVx x) hwf (bs := bcdBytes (s.getV x)) hinside (exec_ldBVx x s)
    have hv := (s.getV x).isLt
    refine ⟨t, hexec, ?_, ?_, ?_, hadvances, hframe⟩
    · exact (congrArg BitVec.toNat (hbytes 0 (by simp))).trans (byteOfNat_toNat (by omega))
    · exact (congrArg BitVec.toNat (hbytes 1 (by simp))).trans (byteOfNat_toNat (by omega))
    · exact (congrArg BitVec.toNat (hbytes 2 (by simp))).trans (byteOfNat_toNat (by omega))
  · exact exec_memoryBounds (i := .ldBVx x) (Nat.succ_ne_zero 2) (Nat.lt_succ_of_le houtside)

/-- Settles O33: the load inside memory; an access of `x + 1` bytes that leaves memory is checked first. -/
theorem ldLoadReadsTheRegisters : Obligations.LdLoadReadsTheRegisters := by
  unfold Obligations.LdLoadReadsTheRegisters
  refine ⟨encoding_withFieldsOf (.ldVxMem 0), fun x s => ⟨fun hinside => ?_, fun houtside => ?_⟩⟩
  · have hload := (exec_ldVxMem x s).trans (checkAccess_ok (.inr hinside) _)
    obtain ⟨t, hexec, hregs, hadvances⟩ := exec_next_of_complete hload (State.loadRegs_pc s _ x)
    exact ⟨t, hexec, fun j hj => (hregs j).trans ((s.getV_loadRegs _ x j).trans (if_pos hj)), hadvances,
      partsWritten_ldVxMem s x ▸ (completes_of_exec hexec).frame⟩
  · exact exec_memoryBounds (i := .ldVxMem x) (Nat.succ_ne_zero _) (Nat.lt_succ_of_le houtside)

/-- Settles O34: a fetch reads memory and the model arguments as the store left them. -/
theorem storedBytesAreFetched : Obligations.StoredBytesAreFetched := by
  unfold Obligations.StoredBytesAreFetched
  intro s t u x j k hwf e hk hkx hmem hparams hpc
  obtain ⟨hinside, -⟩ := checkAccess_next ((exec_ldMemVx x s).symm.trans e)
  obtain ⟨t', e', hbytes, -, -⟩ := exec_ldMemVx_store (x := x) hwf (by omega)
  cases e.symm.trans e'
  have hread : ∀ a, u.byteAt a = t.byteAt a := fun a => by
    rw [State.byteAt, State.byteAt, State.image_eq, State.image_eq, hmem, hparams]
  have hnext : s.i.toNat + j.val + 1 = s.i.toNat + k.val := by omega
  rw [fetch_eq_bigEndian hpc (by omega), hread, hread, hnext, hbytes j (by omega), hbytes k hkx]

/-- Settles O35: the first offending address is `I` itself, when it lies outside, or 4096. -/
theorem accessOutsideMemoryFaultsAtTheFirstAddress : Obligations.AccessOutsideMemoryFaultsAtTheFirstAddress := by
  unfold Obligations.AccessOutsideMemoryFaultsAtTheFirstAddress
  intro i s k hk houtside hfirst
  have hleaves : Config.memSize < s.i.toNat + accessLength i := lt_of_le_of_lt houtside (Nat.add_lt_add_left hk _)
  rw [exec_memoryBounds (by omega) hleaves, max_memSize_of_first houtside hfirst]

/-- Settles O36: the entries of a canonical memory are what it reads at the addresses that differ from the image. -/
theorem memoriesThatReadAlikeAreEqual : Obligations.MemoriesThatReadAlikeAreEqual := by
  unfold Obligations.MemoriesThatReadAlikeAreEqual
  exact fun img m n => Memory.eq_of_read_eq

end Sys2Proof.Proofs
end

section
/-! PROOFS. The step of a running, a waiting and a halted machine, with and without a schedule (40_executor.md R121; 60_exceptions.md
R251, R252; 45_timers_keypad.md R240 to R242). -/

namespace Sys2Proof.Machine

/-! ### The step that runs an instruction -/

theorem executorStep_eq_exec {s : State} {i : Instr} (hrun : Running s) (hinside : s.pc.toNat + 1 < 0x1000)
    (hd : decode [s.byteAt s.pc.toNat, s.byteAt (s.pc.toNat + 1)] = .ok (i, [])) : executorStep s = exec i s := by
  rw [executorStep_fetched hrun (fetch_ok hinside), decodeAndExec, decodeWord_of_decode hd]

theorem stepEvent_next {s t : State} (h : executorStep s = .next t) : stepEvent s = .next t := by
  rw [stepEvent, h]

/-! ### A raised and a recorded fault -/

theorem stepCall_fault {s : State} {f : Fault} (h : executorStep s = .fault f) :
    stepCall s = (s.afterFault f, .fault f) := by
  rw [stepCall, h]

theorem stepCall_halted {s : State} {f : Fault} (h : s.fault = some f) : stepCall s = (s, .fault f) := by
  rw [stepCall_fault (executorStep_halted h), State.afterFault_halted h]

theorem setKey_fault (k : Nat) (v : Bool) (s : State) : (setKey k v s).fault = s.fault := by
  unfold setKey
  split <;> rfl

theorem toggleKey_fault (k : Nat) (s : State) : (toggleKey k s).fault = s.fault := by
  unfold toggleKey
  split <;> rfl

/-- A fault does not depend on the schedule, and recording it leaves the rest of the schedule. -/
theorem step_scheduled_fault {s : State} {f : Fault} (hs : s.fault = none) (h : executorStep s = .fault f)
    (rest : List Event) :
    step { s with schedule := .step :: rest } = .next (State.recordFault { s with schedule := rest } f) := by
  have hfault : executorStep { s with schedule := rest } = .fault f := by
    rw [executorStep_schedule, h, mapNext_fault]
  rw [step_of_cons (s := { s with schedule := .step :: rest }) rfl]
  exact stepEvent_fault (s := { s with schedule := rest }) hs hfault

/-! ### The key wait -/

theorem unchangedExcept_hook {ps : List Part} (hps : Part.hook ∈ ps) (s : State) (hook : Hook) :
    UnchangedExcept ps s { s with hook := hook } :=
  ⟨fun _ _ => rfl, fun _ => rfl, fun _ => ⟨rfl, rfl⟩, fun _ => rfl, fun _ => rfl, fun _ _ => rfl, fun _ => rfl,
    fun _ => rfl, fun _ => rfl, fun h => absurd hps h, fun _ => rfl, rfl, rfl, rfl⟩

theorem unchangedExcept_completeHook (x : Reg) (k : Fin 16) (s : State) :
    UnchangedExcept [.v x, .hook] s (completeHook x k s) :=
  ((unchangedExcept_setV List.mem_cons_self s _).trans (unchangedExcept_hook (by simp) (s.setV x _) .none)).trans
    (unchangedExcept_pc_hint _ _ _ _)

theorem latchedPress_of_press {s : State} {e : Edge} (hedge : s.lastEdge = some e) (hpress : e.current = true) :
    latchedPress s = some e.index := by
  simp only [latchedPress, hedge, hpress, if_true]

/-- The state an `Fx0A` leaves under the default argument: armed, with an empty latch. -/
def State.armed (x : Reg) (s : State) : State := { s with hook := .waitKey x, lastEdge := none, hint := .wait }

theorem exec_ldVxK_armed (x : Reg) {s : State} (h : s.params.acceptsStaleEdge = false) :
    exec (.ldVxK x) s = .next (s.armed x) := by
  rw [exec_ldVxK, complete_stay, h]
  rfl

theorem executorSteps_armed (x : Reg) {s : State} (hfault : s.fault = none) (m : Nat) :
    executorSteps m (s.armed x) = .next (s.armed x) := by
  cases m with
  | zero => rfl
  | succ m => exact executorSteps_wait (s := s.armed x) hfault rfl rfl m

end Sys2Proof.Machine

namespace Sys2Proof.Proofs

open Sys2Proof Sys2Proof.Machine

/-- Settles O6: by the head of the schedule; a scheduled step by what the executor's step answers. -/
theorem stepRunsTheDecodedInstruction : Obligations.StepRunsTheDecodedInstruction := by
  unfold Obligations.StepRunsTheDecodedInstruction
  refine ⟨fun s i hrun hinside hd => ⟨fun hnil => ?_, fun rest hcons => ?_⟩,
    fun s rest k v bits => ⟨step_of_cons, step_of_cons, step_of_cons, step_of_cons, step_of_cons⟩⟩
  · rw [step_of_nil hnil, executorStep_eq_exec hrun hinside hd]
  · have hexec : executorStep { s with schedule := rest } = exec i { s with schedule := rest } :=
      executorStep_eq_exec hrun hinside hd
    exact ⟨fun t e => (step_of_cons hcons).trans (stepEvent_next (hexec.trans e)),
      fun f e => (step_of_cons hcons).trans (stepEvent_fault hrun.1 (hexec.trans e))⟩

/-- Settles O9: the executor answers the recorded fault; no event of another agent looks at it. -/
theorem haltedMachineRepeatsItsFault : Obligations.HaltedMachineRepeatsItsFault := by
  unfold Obligations.HaltedMachineRepeatsItsFault
  intro s f hf
  refine ⟨stepCall_halted hf, fun hnil => (step_of_nil hnil).trans (executorStep_halted hf),
    fun rest hcons => (step_of_cons hcons).trans (stepEvent_halted (f := f) hf),
    fun rest hcons => ⟨_, step_of_cons hcons, tickDown_toNat s.dt, rfl, hf⟩,
    fun rest hcons => ⟨_, step_of_cons hcons, tickDown_toNat s.st, rfl, hf⟩,
    fun rest k v hcons => ⟨step_of_cons hcons, (setKey_fault k v _).trans hf⟩,
    fun rest k hcons => ⟨step_of_cons hcons, (toggleKey_fault k _).trans hf⟩,
    fun rest bits hcons => ⟨_, step_of_cons hcons, rfl, hf⟩⟩

/-- Settles O10: the call leaves the machine with the fault recorded, which is a halted one. -/
theorem raisedFaultIsRecordedAndReturned : Obligations.RaisedFaultIsRecordedAndReturned := by
  unfold Obligations.RaisedFaultIsRecordedAndReturned
  intro s f hs hfault
  have hcall : stepCall s = (s.recordFault f, .fault f) := by
    rw [stepCall_fault hfault, State.afterFault_running hs]
  rw [hcall]
  exact ⟨rfl, State.recordFault_fault s f, State.recordFault_dt s f, State.recordFault_st s f,
    stepCall_halted (State.recordFault_fault s f), fun rest => ⟨_, step_scheduled_fault hs hfault rest,
      State.recordFault_fault _ f, State.recordFault_dt _ f, State.recordFault_st _ f, State.recordFault_schedule _ f⟩⟩

/-- Settles O11: the step is the completion of the hook. -/
theorem hookCompletesOnALatchedPress : Obligations.HookCompletesOnALatchedPress := by
  unfold Obligations.HookCompletesOnALatchedPress
  intro s x e hfault hhook hedge hpress
  exact ⟨_, executorStep_completes hfault hhook (latchedPress_of_press hedge hpress), completeHook_getV_toNat x e.index s,
    ⟨rfl, rfl⟩, rfl, unchangedExcept_completeHook x e.index s⟩

/-- Settles O13: the armed machine stays as it is while it waits, and one press completes the hook. -/
theorem keyWaitEndsWithOnePress : Obligations.KeyWaitEndsWithOnePress := by
  unfold Obligations.KeyWaitEndsWithOnePress
  intro s x k m hfault hdefault hk
  refine ⟨s.armed x, s.armed x, completeHook x ⟨k, hk⟩ (updateKey ⟨k, hk⟩ true (s.armed x)),
    exec_ldVxK_armed x hdefault, executorSteps_armed x hfault m, rfl, rfl, ?_, completeHook_getV_toNat x ⟨k, hk⟩ _, rfl, rfl,
    fun y hy => State.getV_setV_ne _ _ hy⟩
  rw [setKey_of_lt hk]
  exact executorStep_completes hfault rfl (latchedPress_updateKey ⟨k, hk⟩ true _)

end Sys2Proof.Proofs
end

section
/-! PROOFS. Executions: every order of events goes on, a schedule runs its own, and a timer that nothing sets runs down under weak
fairness (20_memory.md R71; 60_exceptions.md R252, R270, R272; decisions D21, D25). -/

namespace Sys2Proof.Machine

/-! ### Every order of events is an execution -/

theorem exists_execution (es : Nat → Event) (s : State) : ∃ ss, ss 0 = s ∧ IsExecution es ss := by
  choose after hafter using exists_applyEvent
  exact ⟨fun k => Nat.rec s (fun k t => after (es k) t) k, rfl, fun k => hafter (es k) _⟩

theorem exists_runEvents (es : List Event) (s : State) : ∃ t, runEvents es s = .next t := by
  induction es generalizing s with
  | nil => exact ⟨s, rfl⟩
  | cons e es ih =>
    obtain ⟨t, ht⟩ := exists_applyEvent e s
    obtain ⟨u, hu⟩ := ih t
    exact ⟨u, by rw [runEvents, ht, andThen_next, hu]⟩

theorem nextEvent_cons (e : Event) (es : List Event) (s : State) :
    nextEvent { s with schedule := e :: es } = mapNext (fun t => { t with schedule := es }) (applyEvent e s) :=
  applyEvent_schedule e s es

theorem runSteps_schedule (es rest : List Event) (s : State) :
    runSteps es.length { s with schedule := es ++ rest } =
      mapNext (fun t => { t with schedule := rest }) (runEvents es s) := by
  induction es generalizing s with
  | nil => rfl
  | cons e es ih =>
    obtain ⟨t, ht⟩ := exists_applyEvent e s
    rw [List.length_cons, List.cons_append, runSteps, nextEvent_cons, runEvents, ht, mapNext_next, andThen_next,
      andThen_next, ih]

/-! ### A timer that only its ticks change -/

/-- The values a timer takes along an execution from the `k`-th state on: a tick or no change at each event, and a tick to come
whenever it stays above 0. -/
structure RunsDown (timer : Nat → Byte) (ticked : Nat → Prop) (k : Nat) : Prop where
  tick : ∀ j, k ≤ j → ticked j → timer (j + 1) = tickDown (timer j)
  keep : ∀ j, k ≤ j → ticked j ∨ timer (j + 1) = timer j
  fair : ∀ i, (∀ j, i ≤ j → timer j ≠ 0) → ∃ j, i ≤ j ∧ ticked j

section
variable {timer : Nat → Byte} {ticked : Nat → Prop} {k : Nat}

theorem RunsDown.mono (h : RunsDown timer ticked k) {j : Nat} (hj : k ≤ j) : RunsDown timer ticked j :=
  ⟨fun i hi => h.tick i (hj.trans hi), fun i hi => h.keep i (hj.trans hi), h.fair⟩

theorem RunsDown.falls_by_at_most_one (h : RunsDown timer ticked k) {j : Nat} (hj : k ≤ j) :
    (timer (j + 1)).toNat ≤ (timer j).toNat ∧ (timer j).toNat ≤ (timer (j + 1)).toNat + 1 := by
  rcases h.keep j hj with htick | hkeep
  · rw [h.tick j hj htick, tickDown_toNat]
    omega
  · rw [hkeep]
    omega

theorem RunsDown.antitone (h : RunsDown timer ticked k) {i j : Nat} (hi : k ≤ i) (hij : i ≤ j) :
    (timer j).toNat ≤ (timer i).toNat := by
  induction j, hij using Nat.le_induction with
  | base => exact le_rfl
  | succ j hij ih => exact (h.falls_by_at_most_one (hi.trans hij)).1.trans ih

/-- Strong induction on the timer's value: as long as it is not 0 a tick is to come, which makes it smaller. -/
theorem RunsDown.eventually_zero (h : RunsDown timer ticked k) : ∃ j, k ≤ j ∧ ∀ m, j ≤ m → timer m = 0 := by
  induction hn : (timer k).toNat using Nat.strong_induction_on generalizing k with
  | h n ih =>
    by_cases hzero : ∃ j, k ≤ j ∧ timer j = 0
    · obtain ⟨j, hj, hz⟩ := hzero
      refine ⟨j, hj, fun m hm => BitVec.eq_of_toNat_eq (Nat.le_zero.mp ?_)⟩
      exact (h.antitone hj hm).trans (by rw [hz]; exact le_rfl)
    · obtain ⟨j, hj, htick⟩ := h.fair k fun j hj hz => hzero ⟨j, hj, hz⟩
      have hpos : (timer j).toNat ≠ 0 := fun hz => hzero ⟨j, hj, BitVec.eq_of_toNat_eq hz⟩
      have hle := h.antitone le_rfl hj
      have hlt : (timer (j + 1)).toNat < n := by
        rw [h.tick j hj htick, tickDown_toNat]
        omega
      obtain ⟨i, hi, hrest⟩ := ih _ hlt (h.mono (j := j + 1) (by omega)) rfl
      exact ⟨i, by omega, hrest⟩

end

/-! ### The timers of an execution -/

section
variable {es : Nat → Event} {ss : Nat → State} {k : Nat}

theorem IsExecution.next_eq (h : IsExecution es ss) {j : Nat} {t : State} (ht : applyEvent (es j) (ss j) = .next t) :
    ss (j + 1) = t := Host.Outcome.next.inj ((h j).symm.trans ht)

theorem WeaklyFair.dt_runsDown (h : WeaklyFair es ss)
    (hkeep : ∀ j, k ≤ j → es j = .tickDT ∨ (ss (j + 1)).dt = (ss j).dt) :
    RunsDown (fun j => (ss j).dt) (fun j => es j = .tickDT) k :=
  ⟨fun j _ htick => congrArg State.dt (h.execution.next_eq (j := j) (t := tickDT (ss j)) (by rw [htick]; rfl)),
    hkeep, h.delay⟩

theorem WeaklyFair.st_runsDown (h : WeaklyFair es ss)
    (hkeep : ∀ j, k ≤ j → es j = .tickST ∨ (ss (j + 1)).st = (ss j).st) :
    RunsDown (fun j => (ss j).st) (fun j => es j = .tickST) k :=
  ⟨fun j _ htick => congrArg State.st (h.execution.next_eq (j := j) (t := tickST (ss j)) (by rw [htick]; rfl)),
    hkeep, h.sound⟩

/-! ### After a fault -/

/-- What an event leaves of a halted machine: the fault, and each timer but for its own tick. -/
structure StaysHalted (f : Fault) (e : Event) (s t : State) : Prop where
  fault : t.fault = some f
  dt : e = .tickDT ∨ t.dt = s.dt
  st : e = .tickST ∨ t.st = s.st

theorem applyEvent_halted {e : Event} {s t : State} {f : Fault} (hf : s.fault = some f) (h : applyEvent e s = .next t) :
    StaysHalted f e s t := by
  cases e with
  | step =>
    cases (stepEvent_halted hf).symm.trans h
    exact ⟨hf, .inr rfl, .inr rfl⟩
  | tickDT => cases h; exact ⟨hf, .inl rfl, .inr rfl⟩
  | tickST => cases h; exact ⟨hf, .inr rfl, .inl rfl⟩
  | setAll bits => cases h; exact ⟨hf, .inr rfl, .inr rfl⟩
  | setKey i v =>
    cases h
    unfold setKey
    split <;> exact ⟨hf, .inr rfl, .inr rfl⟩
  | toggleKey i =>
    cases h
    unfold toggleKey
    split <;> exact ⟨hf, .inr rfl, .inr rfl⟩

theorem IsExecution.fault_stays (h : IsExecution es ss) {f : Fault} (hf : (ss k).fault = some f) {j : Nat} (hj : k ≤ j) :
    (ss j).fault = some f := by
  induction j, hj using Nat.le_induction with
  | base => exact hf
  | succ j _ ih => exact (applyEvent_halted ih (h j)).fault

theorem WeaklyFair.timers_zero_after_fault (h : WeaklyFair es ss) {f : Fault} (hf : (ss k).fault = some f) :
    ∃ j, k ≤ j ∧ ∀ m, j ≤ m → (ss m).fault = some f ∧ (ss m).dt = 0 ∧ (ss m).st = 0 := by
  have hstays : ∀ j, k ≤ j → StaysHalted f (es j) (ss j) (ss (j + 1)) := fun j hj =>
    applyEvent_halted (h.execution.fault_stays hf hj) (h.execution j)
  obtain ⟨a, ha, hdt⟩ := (h.dt_runsDown fun j hj => (hstays j hj).dt).eventually_zero
  obtain ⟨b, hb, hst⟩ := (h.st_runsDown fun j hj => (hstays j hj).st).eventually_zero
  exact ⟨max a b, ha.trans (le_max_left a b), fun m hm => ⟨h.execution.fault_stays hf (by omega), hdt m (by omega),
    hst m (by omega)⟩⟩

end

end Sys2Proof.Machine

namespace Sys2Proof.Proofs

open Sys2Proof Sys2Proof.Machine

/-- Settles O59: every event goes on to a next state, and the head of a schedule is the event itself. -/
theorem everyInterleavingIsAnExecution : Obligations.EveryInterleavingIsAnExecution := by
  unfold Obligations.EveryInterleavingIsAnExecution
  exact ⟨exists_execution, exists_runEvents, runSteps_schedule⟩

/-- Settles O60: a fairly ticked timer runs down, and no event of a halted machine sets one. -/
theorem weaklyFairExecutionsRunTimersDown : Obligations.WeaklyFairExecutionsRunTimersDown := by
  unfold Obligations.WeaklyFairExecutionsRunTimersDown
  intro es ss h
  refine ⟨fun k hkeep => ?_, fun k hkeep => ?_, fun k f hf => h.timers_zero_after_fault hf⟩
  · have hdown := h.dt_runsDown hkeep
    exact ⟨fun j hj => hdown.falls_by_at_most_one hj, hdown.eventually_zero⟩
  · have hdown := h.st_runsDown hkeep
    exact ⟨fun j hj => hdown.falls_by_at_most_one hj, hdown.eventually_zero⟩

end Sys2Proof.Proofs
end

section
/-! PROOFS. No instruction reads `ST` (10_state.md R28). -/

namespace Sys2Proof.Machine

theorem complete_st (dir : Directive) (h : Hint) (s : State) (b : Byte) :
    complete dir h { s with st := b } = mapNext (fun t => { t with st := b }) (complete dir h s) := by
  cases dir with
  | next | skip | stay => rfl
  | jump a =>
    by_cases ha : 0x200 ≤ a ∧ a < 0x1000
    · rw [complete_jump _ _ ha, complete_jump _ _ ha, mapNext_next]
    · rw [complete_jump_fault _ _ ha, complete_jump_fault _ _ ha, mapNext_fault]

/-- By what the instruction checks first: nothing, a digit, the depth of the stack, or the bounds of its access. -/
theorem exec_st {i : Instr} (hi : ∀ x, i ≠ .ldStVx x) (s : State) (b : Byte) :
    exec i { s with st := b } = mapNext (fun t => { t with st := b }) (exec i s) := by
  cases i with
  | ldStVx x => exact absurd rfl (hi x)
  | ret =>
    by_cases h : 0 < s.sp.val
    · rw [exec_ret h, ← complete_st]
      exact exec_ret (s := { s with st := b }) h
    · have hempty : s.sp.val = 0 := by omega
      rw [exec_ret_fault hempty]
      exact exec_ret_fault (s := { s with st := b }) hempty
  | call nnn =>
    by_cases h : s.sp.val < 16
    · rw [exec_call h, ← complete_st]
      exact exec_call (s := { s with st := b }) h
    · have hfull : s.sp.val = 16 := by omega
      rw [exec_call_fault hfull]
      exact exec_call_fault (s := { s with st := b }) hfull
  | skp x =>
    by_cases h : (s.getV x).toNat < 16
    · rw [exec_skp h, ← complete_st]
      exact exec_skp (s := { s with st := b }) h
    · rw [exec_skp_fault h]
      exact exec_skp_fault (s := { s with st := b }) h
  | sknp x =>
    by_cases h : (s.getV x).toNat < 16
    · rw [exec_sknp h, ← complete_st]
      exact exec_sknp (s := { s with st := b }) h
    · rw [exec_sknp_fault h]
      exact exec_sknp_fault (s := { s with st := b }) h
  | ldFVx x =>
    by_cases h : (s.getV x).toNat < 16
    · rw [exec_ldFVx h, ← complete_st]
      exact exec_ldFVx (s := { s with st := b }) h
    · rw [exec_ldFVx_fault h]
      exact exec_ldFVx_fault (s := { s with st := b }) h
  | ldBVx x => rw [exec_ldBVx, exec_ldBVx, ← checkAccess_mapNext, ← complete_st]; rfl
  | ldMemVx x => rw [exec_ldMemVx, exec_ldMemVx, ← checkAccess_mapNext, ← complete_st]; rfl
  | ldVxMem x => rw [exec_ldVxMem, exec_ldVxMem, ← checkAccess_mapNext, ← complete_st]; rfl
  | drw x y n => rw [exec_drw, exec_drw, ← checkAccess_mapNext, ← complete_st]; rfl
  | cls | jp nnn | jpV0Nnn nnn | seVxKk x kk | sneVxKk x kk | seVxVy x y | sneVxVy x y | ldVxKk x kk | addVxKk x kk
  | ldVxVy x y | or x y | and x y | xor x y | addVxVy x y | sub x y | shr x y | subn x y | shl x y | rnd x kk
  | ldINnn nnn | addIVx x | ldVxDt x | ldDtVx x | ldVxK x =>
    simp only [exec_cls, exec_jp, exec_jpV0Nnn, exec_seVxKk, exec_sneVxKk, exec_seVxVy, exec_sneVxVy, exec_ldVxKk,
      exec_addVxKk, exec_ldVxVy, exec_or, exec_and, exec_xor, exec_addVxVy, exec_sub, exec_shr, exec_subn, exec_shl, exec_rnd,
      exec_ldINnn, exec_addIVx, exec_ldVxDt, exec_ldDtVx, exec_ldVxK, ← complete_st] <;> rfl

end Sys2Proof.Machine

namespace Sys2Proof.Proofs

open Sys2Proof Sys2Proof.Machine

/-- Settles O56: `LD ST` overwrites `ST`, every other instruction leaves it. -/
theorem soundTimerIsReadByNoInstruction : Obligations.SoundTimerIsReadByNoInstruction := by
  unfold Obligations.SoundTimerIsReadByNoInstruction
  refine fun i s b => ⟨fun hi => exec_st hi s b, ?_⟩
  rintro x rfl
  exact exec_ldStVx x s

end Sys2Proof.Proofs
end

section
/-! PROOFS. The directives, `RET` and `CALL`, and the instructions of the ALU, the index register, the timers and the keypad that no
section before settles (40_executor.md R124; 41_control_flow.md R140, R142, R147; 42_alu.md R164 to R172; 43_index_memory.md R192;
45_timers_keypad.md R232 to R240; 60_exceptions.md R275 to R277). -/

namespace Sys2Proof.Machine

/-! ### The return stack -/

/-- A `RET` to an address that may be jumped to. -/
theorem exec_ret_top {s : State} {a : Word} (h : 0 < s.sp.val) (htop : s.stack[s.sp.val - 1]'(by omega) = a)
    (ha : 0x200 ≤ a.toNat ∧ a.toNat < 0x1000) :
    exec .ret s = .next { s with sp := ⟨s.sp.val - 1, by omega⟩, pc := a, hint := .none } := by
  subst htop
  rw [exec_ret h, complete_jump _ _ ha, BitVec.ofNat_toNat, BitVec.setWidth_eq]

theorem State.Inv.top_range {s : State} (hinv : s.Inv) (hf : s.fault = none) (h : 0 < s.sp.val) :
    0x202 ≤ (s.stack[s.sp.val - 1]'(by omega)).toNat ∧ (s.stack[s.sp.val - 1]'(by omega)).toNat ≤ 0x1000 :=
  hinv.stack_range hf ⟨s.sp.val - 1, by omega⟩ (Nat.sub_lt h Nat.one_pos)

/-! ### Results as bits and numbers -/

/-- A step that writes one register, with its byte given bit by bit. -/
theorem writesBits_of_complete {i : Instr} {s : State} {x : Reg} {v : Byte} {bit : Nat → Bool}
    (hexec : exec i s = complete .next .none (s.setV x v)) (hbit : ∀ b, v.getLsbD b = bit b) :
    ∃ t, exec i s = .next t ∧ (∀ b, (t.getV x).getLsbD b = bit b) ∧ Advances .none s t ∧ UnchangedExcept [.v x] s t := by
  obtain ⟨t, hnext, hv, hadvances, hframe⟩ := writesRegister_of_complete hexec
  exact ⟨t, hnext, fun b => hv ▸ hbit b, hadvances, hframe⟩

theorem shiftRight_result_toNat (a : Byte) : (shiftRight a).1.toNat = a.toNat / 2 := by
  rw [shiftRight, BitVec.toNat_ushiftRight, Nat.shiftRight_eq_div_pow, pow_one]

theorem shiftRight_flag_toNat (a : Byte) : (shiftRight a).2.toNat = a.toNat % 2 := by
  rw [shiftRight, BitVec.toNat_and]
  exact Nat.and_one_is_mod _

theorem shiftLeft_result_toNat (a : Byte) : (shiftLeft a).1.toNat = 2 * a.toNat % 256 := by
  rw [shiftLeft, BitVec.toNat_shiftLeft, Nat.shiftLeft_eq, pow_one, Nat.mul_comm]

theorem shiftLeft_flag_toNat (a : Byte) : (shiftLeft a).2.toNat = a.toNat / 128 := by
  rw [shiftLeft, BitVec.toNat_ushiftRight, Nat.shiftRight_eq_div_pow]

theorem getLsbD_and_mask_eq_false {a mask : Byte} {b : Nat} (h : mask.getLsbD b = false) : (a &&& mask).getLsbD b = false := by
  rw [BitVec.getLsbD_and, h, Bool.and_false]

/-! ### Timers and keys -/

theorem soundHint_eq (b : Byte) : (if b = 0 then Hint.none else .sound) = if 0 < b.toNat then .sound else .none := by
  by_cases hb : b = 0
  · rw [if_pos hb, hb]
    rfl
  · rw [if_neg hb, if_pos (by bv_omega)]

theorem soundOn_iff (s : State) : soundOn s = true ↔ 0 < s.st.toNat := by
  rw [soundOn, decide_eq_true_iff]
  constructor <;> intro h <;> bv_omega

theorem unchangedExcept_keys_lastEdge (s : State) (keys : Vector Bool 16) (e : Option Edge) :
    UnchangedExcept [.keys, .lastEdge] s { s with keys := keys, lastEdge := e } :=
  ⟨fun _ _ => rfl, fun _ => rfl, fun _ => ⟨rfl, rfl⟩, fun _ => rfl, fun _ => rfl, fun _ _ => rfl, fun _ => rfl,
    fun h => absurd (by simp) h, fun h => absurd (by simp) h, fun _ => rfl, fun _ => rfl, rfl, rfl, rfl⟩

theorem setKey_of_not_lt {k : Nat} (hk : ¬k < 16) (v : Bool) (s : State) : setKey k v s = s := dif_neg hk

theorem toggleKey_of_lt {k : Nat} (hk : k < 16) (s : State) : toggleKey k s = updateKey ⟨k, hk⟩ (!s.key ⟨k, hk⟩) s :=
  dif_pos hk

theorem toggleKey_of_not_lt {k : Nat} (hk : ¬k < 16) (s : State) : toggleKey k s = s := dif_neg hk

end Sys2Proof.Machine

namespace Sys2Proof.Proofs

open Sys2Proof Sys2Proof.Machine

/-- Settles O14: the three moves hold by definition; a jump is a test of its target, which then fits in `PC`. -/
theorem directiveMovesThePc : Obligations.DirectiveMovesThePc := by
  unfold Obligations.DirectiveMovesThePc
  refine fun h s => ⟨complete_next h s, complete_skip h s, complete_stay h s,
    fun a => ⟨fun ha => ⟨_, complete_jump h s ha, ?_, rfl⟩, complete_jump_fault h s⟩⟩
  rw [BitVec.toNat_ofNat]
  omega

/-- Settles O15: an address that the invariant allows on the stack is at most `0x1000`, the only one out of range. -/
theorem retPopsAndJumps : Obligations.RetPopsAndJumps := by
  unfold Obligations.RetPopsAndJumps
  refine ⟨encoding_withFieldsOf .ret, fun s => ⟨exec_ret_fault, fun h => ⟨fun ha => ?_, fun ha => ?_, fun hinv hf ha => ?_⟩⟩⟩
  · have hexec := exec_ret_top h rfl ha
    exact ⟨_, hexec, rfl, rfl, Nat.sub_add_cancel h, rfl, (completes_of_exec hexec).frame⟩
  · rw [exec_ret h, complete_jump_fault _ _ ha]
  · obtain ⟨hlow, hhigh⟩ := hinv.top_range hf h
    exact BitVec.eq_of_toNat_eq (hhigh.antisymm (not_lt.mp fun hlt => ha ⟨le_trans (by decide) hlow, hlt⟩))

/-- Settles O17: the push comes first, so a full stack is reported whatever the target is. -/
theorem callPushesAndJumps : Obligations.CallPushesAndJumps := by
  unfold Obligations.CallPushesAndJumps
  refine ⟨encoding_withFieldsOf (.call 0), fun nnn s => ⟨exec_call_fault, fun h hlow => ?_, fun h hlow => ?_⟩⟩
  · exact (exec_call h).trans (complete_jump_fault _ _ (by omega))
  · have hhigh := nnn.isLt
    have hexec := (exec_call h).trans (complete_jump .none _ ⟨hlow, hhigh⟩)
    refine ⟨_, hexec, ?_, rfl, rfl, Vector.getElem_set_self _, fun j hj => Vector.getElem_set_ne h _ (Ne.symm hj),
      (completes_of_exec hexec).frame⟩
    rw [BitVec.toNat_ofNat]
    omega

/-- Settles O18: the top entry is the one the `CALL` pushed, and the entries below it are those it found. -/
theorem retUndoesCall : Obligations.RetUndoesCall := by
  unfold Obligations.RetUndoesCall
  intro s t u nnn e hstack hsp hlow hhigh
  obtain ⟨h, pc, -, -, rfl⟩ := exec_call_next e
  have hdepth : u.sp.val = s.sp.val + 1 := congrArg Fin.val hsp
  have htop : u.stack[u.sp.val - 1]'(by omega) = s.pc + 2 := by
    simp [hstack, hdepth]
  refine ⟨_, exec_ret_top (by omega) htop ⟨hlow, hhigh⟩, rfl, Fin.ext ?_, fun j hj => ?_⟩
  · show u.sp.val - 1 = s.sp.val
    omega
  · show u.stack[j.val]'j.isLt = s.stack[j.val]'j.isLt
    simp only [hstack]
    exact Vector.getElem_set_ne _ _ (Nat.ne_of_gt hj)

/-- Settles O20: one jump, to the sum of two natural numbers. -/
theorem jpV0JumpsToTheSum : Obligations.JpV0JumpsToTheSum := by
  unfold Obligations.JpV0JumpsToTheSum
  exact ⟨encoding_withFieldsOf (.jpV0Nnn 0), fun nnn s => jumpsTo_of_complete (exec_jpV0Nnn nnn s)⟩

/-- Settles O24: each is one register write, of the two old bytes combined bit by bit. -/
theorem bitwiseCombinesRegisters : Obligations.BitwiseCombinesRegisters := by
  unfold Obligations.BitwiseCombinesRegisters
  exact ⟨encoding_withFieldsOf (.or 0 0), encoding_withFieldsOf (.and 0 0), encoding_withFieldsOf (.xor 0 0), fun x y s =>
    ⟨writesBits_of_complete (exec_or x y s) fun _ => BitVec.getLsbD_or,
      writesBits_of_complete (exec_and x y s) fun _ => BitVec.getLsbD_and,
      writesBits_of_complete (exec_xor x y s) fun _ => BitVec.getLsbD_xor⟩⟩

/-- Settles O27: result and flag are taken from the old `V[x]` before either is written. -/
theorem shiftsSetTheBitShiftedOut : Obligations.ShiftsSetTheBitShiftedOut := by
  unfold Obligations.ShiftsSetTheBitShiftedOut
  exact ⟨encoding_withFieldsOf (.shr 0 0), encoding_withFieldsOf (.shl 0 0), fun x y s =>
    ⟨writesResultThenFlag_of_complete (exec_shr x y s) (shiftRight_result_toNat _) (shiftRight_flag_toNat _),
      writesResultThenFlag_of_complete (exec_shl x y s) (shiftLeft_result_toNat _) (shiftLeft_flag_toNat _)⟩⟩

/-- Settles O28: the drawn byte is masked before it is written, whatever it is. -/
theorem rndDrawsOneMaskedByte : Obligations.RndDrawsOneMaskedByte := by
  unfold Obligations.RndDrawsOneMaskedByte
  refine ⟨encoding_withFieldsOf (.rnd 0 0), fun x kk s => ?_⟩
  have hexec := (exec_rnd x kk s).trans (complete_next .none _)
  have hv : (s.setV x (Config.randomByte s.draws &&& kk)).getV x = Config.randomByte s.draws &&& kk := s.getV_setV_same x _
  exact ⟨_, hexec, hv, rfl, fun b hb => (congrArg (·.getLsbD b) hv).trans (getLsbD_and_mask_eq_false hb), ⟨rfl, rfl⟩,
    (completes_of_exec hexec).frame⟩

/-- Settles O30: the glyph's address is at most `FONT_BASE + 75`, which fits in `I`. -/
theorem ldFontPointsAtTheGlyph : Obligations.LdFontPointsAtTheGlyph := by
  unfold Obligations.LdFontPointsAtTheGlyph
  refine ⟨encoding_withFieldsOf (.ldFVx 0), fun x s => ⟨fun h => ?_, fun h => exec_ldFVx_fault (by omega)⟩⟩
  have hbase := s.params.fontBase.isLt
  refine writesIndex_of_complete (exec_ldFVx (by omega)) ?_
  rw [BitVec.toNat_ofNat]
  omega

/-- Settles O42: one write of `ST`; the hint and the signal are the same test of the written value. -/
theorem ldSetsTheSoundTimer : Obligations.LdSetsTheSoundTimer := by
  unfold Obligations.LdSetsTheSoundTimer
  refine ⟨encoding_withFieldsOf (.ldStVx 0), fun x s => ?_⟩
  have hexec := (exec_ldStVx x s).trans (complete_next _ _)
  exact ⟨_, hexec, rfl, ⟨rfl, soundHint_eq (s.getV x)⟩, soundOn_iff _, (completes_of_exec hexec).frame⟩

/-- Settles O43: each is a skip on the state of the key, once the value names one. -/
theorem skipOnKey : Obligations.SkipOnKey := by
  unfold Obligations.SkipOnKey
  refine ⟨encoding_withFieldsOf (.skp 0), encoding_withFieldsOf (.sknp 0), fun x s =>
    ⟨fun h => ⟨skipsWhen_of_complete ?_, skipsWhen_of_complete ?_⟩,
      fun h => ⟨exec_skp_fault (by omega), exec_sknp_fault (by omega)⟩⟩⟩
  · rw [exec_skp h, State.key, Bool.decide_eq_true]
  · rw [exec_sknp h, State.key, Bool.decide_eq_false]

/-- Settles O44: the hook and the latch are written, and the directive is `Stay`. -/
theorem ldKeyArmsTheHook : Obligations.LdKeyArmsTheHook := by
  unfold Obligations.LdKeyArmsTheHook
  refine ⟨encoding_withFieldsOf (.ldVxK 0), fun x s => ?_⟩
  have hexec := (exec_ldVxK x s).trans (complete_stay .wait _)
  exact ⟨_, hexec, rfl, rfl, rfl, fun h => if_neg (by simp [h]), fun h => if_pos h, (completes_of_exec hexec).frame⟩

/-- Settles O46: a single-key update is `updateKey`, and each update writes the keys and the latch only. -/
theorem keyUpdatesSetKeysAndLatch : Obligations.KeyUpdatesSetKeysAndLatch := by
  unfold Obligations.KeyUpdatesSetKeysAndLatch
  intro s i v bits
  refine ⟨fun h => ?_, fun h => ⟨setKey_of_not_lt (by omega) v s, toggleKey_of_not_lt (by omega) s⟩, fun k => rfl, rfl,
    unchangedExcept_keys_lastEdge s _ _, rfl⟩
  rw [setKey_of_lt h, setKey_of_lt h, toggleKey_of_lt h]
  refine ⟨fun k => ?_, rfl, unchangedExcept_keys_lastEdge s _ _, rfl, rfl⟩
  rw [key_updateKey]
  simp only [Fin.ext_iff]

end Sys2Proof.Proofs
end

section
/-! PROOFS. `DRW` as one blit of the bytes at `I`, and what two equal blits in a row do to the display (44_display.md R211, R213, R214;
log 15). -/

namespace Sys2Proof.Machine

/-! ### Two equal blits -/

/-- By `TurnsOver`, each cell under a 1-bit is turned over twice. -/
theorem xorSprite_twice (sx sy : Nat) (bytes : List Byte) (d : Display) :
    (xorSprite sx sy bytes (xorSprite sx sy bytes d).1).1 = d := by
  refine Display.ext_cell fun c r hc hr => ?_
  rw [(xorSprite_turnsOver sx sy bytes _).cell_eq c r hc hr, (xorSprite_turnsOver sx sy bytes d).cell_eq c r hc hr,
    Bool.xor_assoc, Bool.xor_self, Bool.xor_false]

/-- A cell that the first blit lit is one under a 1-bit that is lit after it. -/
theorem xorSprite_twice_collision_iff (sx sy : Nat) (bytes : List Byte) (d : Display) :
    (xorSprite sx sy bytes (xorSprite sx sy bytes d).1).2 = true ↔
      ∃ c r, c < 64 ∧ r < 32 ∧ Display.cell d c r = false ∧ Display.cell (xorSprite sx sy bytes d).1 c r = true := by
  rw [(xorSprite_turnsOver sx sy bytes _).collision_iff, or_iff_right Bool.false_ne_true]
  refine exists_congr fun c => exists_congr fun r => and_congr_right fun hc => and_congr_right fun hr =>
    and_congr_left fun hlit => ?_
  rw [(xorSprite_turnsOver sx sy bytes d).cell_eq c r hc hr] at hlit
  cases hcell : Display.cell d c r <;> simpa [hcell] using hlit

/-! ### The instruction -/

theorem readBytes_eq_spriteBytes (s : State) (n : Nat) : Memory.readBytes s.image s.mem s.i.toNat n = s.spriteBytes n := by
  refine List.ext_getElem (by simp [State.spriteBytes]) fun j h _ => ?_
  rw [Memory.getElem_readBytes s.mem s.i.toNat n j h]
  simp [State.spriteBytes, State.byteAt]

theorem blit_eq_xorSprite (s : State) (x y : Reg) (n : Nat) :
    s.blit x y n = xorSprite ((s.getV x).toNat % 64) ((s.getV y).toNat % 32) (s.spriteBytes n) s.disp := by
  rw [State.blit, readBytes_eq_spriteBytes]

theorem flagByte_toNat (c : Bool) : (flagByte c).toNat = if c then 1 else 0 := by
  cases c <;> rfl

theorem flagByte_eq_one_iff (c : Bool) : flagByte c = 1 ↔ c = true := by
  cases c <;> decide

theorem flagByte_eq_zero_or_one (c : Bool) : flagByte c = 0 ∨ flagByte c = 1 := by
  cases c <;> decide

/-- What `DRW` leaves: the display and the flag of its blit. -/
theorem exec_drw_blit {x y : Reg} {n : Nat} {s : State} (h : n = 0 ∨ s.i.toNat + n ≤ 0x1000) :
    ∃ t, exec (.drw x y n) s = .next t ∧ t.disp = (s.blit x y n).1 ∧ t.getV 15 = flagByte (s.blit x y n).2
      ∧ Advances .draw s t := by
  have hexec := (exec_drw x y n s).trans ((checkAccess_ok h _).trans (complete_next .draw _))
  exact ⟨_, hexec, rfl, s.getV_setV_same vf _, rfl, rfl⟩

/-- A `DRW` that completes, with its blit. -/
theorem exec_drw_next {x y : Reg} {n : Nat} {s t : State} (e : exec (.drw x y n) s = .next t) :
    t.disp = (s.blit x y n).1 ∧ t.getV 15 = flagByte (s.blit x y n).2 := by
  obtain ⟨hinside, -⟩ := checkAccess_next ((exec_drw x y n s).symm.trans e)
  obtain ⟨t', e', hdisp, hflag, -⟩ := exec_drw_blit (x := x) (y := y) hinside
  cases e.symm.trans e'
  exact ⟨hdisp, hflag⟩

end Sys2Proof.Machine

namespace Sys2Proof.Proofs

open Sys2Proof Sys2Proof.Machine

/-- Settles O38: an access inside memory is one blit, of the bytes at `I`, with the old `V[x]` and `V[y]`. -/
theorem drwBlitsTheSprite : Obligations.DrwBlitsTheSprite := by
  unfold Obligations.DrwBlitsTheSprite
  refine ⟨encoding_withFieldsOf (.drw 0 0 0), fun x y n s => ⟨fun hinside => ?_, fun hn houtside => ?_⟩⟩
  · obtain ⟨t, hexec, hdisp, hflag, hadvances⟩ := exec_drw_blit (x := x) (y := y) hinside
    refine ⟨t, _, blit_eq_xorSprite s x y n, hexec, hdisp, ?_, hadvances, (completes_of_exec hexec).frame⟩
    rw [hflag, flagByte_toNat]
  · exact exec_memoryBounds (i := .drw x y n) hn houtside

/-- Settles O40: the two blits have the same bytes and the same start, and the second begins where the first ended. -/
theorem drawingTwiceRestoresTheDisplay : Obligations.DrawingTwiceRestoresTheDisplay := by
  unfold Obligations.DrawingTwiceRestoresTheDisplay
  intro s t t' u x y x' y' n e e' hdisp hbytes hx hy
  obtain ⟨hfirst, -⟩ := exec_drw_next e
  obtain ⟨hsecond, hflag⟩ := exec_drw_next e'
  rw [blit_eq_xorSprite] at hfirst
  rw [blit_eq_xorSprite, hdisp, hbytes, hx, hy, hfirst] at hsecond hflag
  rw [hsecond, hflag, hfirst]
  exact ⟨xorSprite_twice _ _ _ _, (flagByte_eq_one_iff _).trans (xorSprite_twice_collision_iff _ _ _ _),
    flagByte_eq_zero_or_one _⟩

end Sys2Proof.Proofs
end

section
/-! PROOFS. Reset and construction: the font's bytes for every argument and for the default one, the image with a ROM copied over it,
and the invariant (10_state.md R36, R37; 20_memory.md R65; 70_reset_and_hazards.md R300). -/

namespace Sys2Proof.Machine

open Config

/-! ### The font -/

theorem fontByte_of_lt (p : Params) {k : Nat} (h : k < 80) : fontByte p k = (p.fontRows[k]'h).setWidth 8 <<< 4 := dif_pos h

/-- A byte with an empty low nibble is its high nibble, moved there. -/
theorem highNibble_shiftLeft {b : Byte} (h : b.toNat % 16 = 0) : (b.extractLsb' 4 4).setWidth 8 <<< 4 = b := by
  have hb := b.isLt
  apply BitVec.eq_of_toNat_eq
  simp [Nat.shiftRight_eq_div_pow, Nat.shiftLeft_eq]
  omega

theorem fontTable_lowNibble {b : Byte} (h : b ∈ fontTable) : b.toNat % 16 = 0 := by
  have hall : (fontTable.all fun b => b.toNat % 16 = 0) = true := by decide
  exact of_decide_eq_true (List.all_eq_true.mp hall b h)

theorem fontTable_length : fontTable.length = 80 := by decide

theorem fontByte_default {k : Nat} (h : k < 80) : fontByte defaultParams k = fontTable.getD k 0 := by
  have hmem : fontTable.getD k 0 ∈ fontTable := by
    rw [List.getD_eq_getElem _ _ (by rwa [fontTable_length])]
    exact List.getElem_mem _
  rw [fontByte_of_lt _ h]
  simp only [defaultParams, defaultFontRows, Vector.getElem_ofFn]
  exact highNibble_shiftLeft (fontTable_lowNibble hmem)

theorem initialByte_font (p : Params) {k : Nat} (h : k < 80) : initialByte p (p.fontBase.val + k) = fontByte p k := by
  rw [initialByte, if_pos ⟨by omega, by unfold fontSize; omega⟩, Nat.add_sub_cancel_left]

theorem byteAt_resetWith (p : Params) (v : Vector Byte 16) (i : Word) (es : List Event) (a : Nat) :
    (State.resetWith p v i es).byteAt a = initialByte p a := rfl

/-! ### The invariant -/

theorem State.inv_resetWith (p : Params) (v : Vector Byte 16) (i : Word) (es : List Event) :
    (State.resetWith p v i es).Inv :=
  ⟨Memory.wf_nil, fun _ => (by decide : 0x200 ≤ (0x200#16).toNat ∧ (0x200#16).toNat ≤ 0x1002), fun _ h => absurd rfl h,
    fun _ j hj => absurd hj (Nat.not_lt_zero j.val)⟩

theorem State.Inv.storeBytes {s : State} (h : s.Inv) {a : Nat} {bs : List Byte} (ha : a + bs.length ≤ memSize) :
    (s.storeBytes a bs).Inv :=
  ⟨State.wf_storeBytes h.mem_wf ha, h.pc_range, h.hook_pc, h.stack_range⟩

/-! ### Construction -/

theorem construct_tooLong (p : Params) (v : Vector Byte 16) (i : Word) (es : List Event) {rom : List Byte}
    (h : romMax < rom.length) : construct p v i es rom = .error ⟨rom.length⟩ := if_pos h

theorem construct_fits (p : Params) (v : Vector Byte 16) (i : Word) (es : List Event) {rom : List Byte}
    (h : rom.length ≤ romMax) :
    construct p v i es rom = .ok ((State.resetWith p v i es).storeBytes progBase rom) := if_neg (by omega)

/-- The font ends below the ROM, so neither hides the other. -/
theorem byteAt_constructed (p : Params) (v : Vector Byte 16) (i : Word) (es : List Event) {rom : List Byte}
    (h : rom.length ≤ 3584) (a : Nat) :
    ((State.resetWith p v i es).storeBytes progBase rom).byteAt a =
      if p.fontBase.val ≤ a ∧ a < p.fontBase.val + 80 then fontByte p (a - p.fontBase.val)
      else if 0x200 ≤ a ∧ a < 0x200 + rom.length then rom.getD (a - 0x200) 0 else 0 := by
  have hbase := p.fontBase.isLt
  have hread : ((State.resetWith p v i es).storeBytes progBase rom).byteAt a =
      if h : 0x200 ≤ a ∧ a < 0x200 + rom.length then rom[a - 0x200]'(by omega) else initialByte p a :=
    Memory.read_writeBytes (img := initialByte p) Memory.wf_nil (a := 0x200) (by unfold memSize; omega) a
  rw [hread]
  by_cases hrom : 0x200 ≤ a ∧ a < 0x200 + rom.length
  · rw [dif_pos hrom, if_neg (by omega), if_pos hrom, List.getD_eq_getElem _ _ (by omega)]
  · rw [dif_neg hrom, if_neg hrom, initialByte]

end Sys2Proof.Machine

namespace Sys2Proof.Proofs

open Sys2Proof Sys2Proof.Machine

/-- Settles O47: memory reads as the image, which at the default arguments is the table from `0x000` on. -/
theorem resetLeavesTheListedValues : Obligations.ResetLeavesTheListedValues := by
  unfold Obligations.ResetLeavesTheListedValues
  refine ⟨rfl, fun x => Vector.getElem_replicate _, rfl, rfl, rfl, rfl, fun a => ?_, Display.cell_clear,
    fun k => Vector.getElem_replicate _, rfl, rfl, rfl⟩
  have himage : State.reset.byteAt a = initialByte defaultParams a := byteAt_resetWith _ _ _ _ a
  rw [himage]
  by_cases ha : a < 80
  · have hfont := initialByte_font defaultParams ha
    rw [show defaultParams.fontBase.val + a = a from Nat.zero_add a] at hfont
    rw [if_pos ha, hfont, fontByte_default ha]
  · have hnot : ¬(defaultParams.fontBase.val ≤ a ∧ a < defaultParams.fontBase.val + Config.fontSize) := fun h =>
      ha (h.2.trans_eq (Nat.zero_add 80))
    rw [if_neg ha, initialByte, if_neg hnot]

/-- Settles O48: a byte of the font is its row's four pixels, moved to the high nibble. -/
theorem fontGlyphsAreFourPixelsWide : Obligations.FontGlyphsAreFourPixelsWide := by
  unfold Obligations.FontGlyphsAreFourPixelsWide
  refine ⟨fun p v i es d r hd hr => ?_, fontTable_length, fun k hk => fontByte_default hk⟩
  have hbase := p.fontBase.isLt
  have hbyte : (State.resetWith p v i es).byteAt (p.fontBase.val + 5 * d + r) =
      (p.fontRows[5 * d + r]'(by omega)).setWidth 8 <<< 4 := by
    rw [byteAt_resetWith, Nat.add_assoc, initialByte_font p (by omega), fontByte_of_lt p (by omega)]
  refine ⟨by omega, fun b hb => ?_, fun b hb => ?_⟩
  · rw [hbyte, BitVec.getLsbD_shiftLeft, Nat.add_sub_cancel, BitVec.getLsbD_setWidth]
    simp [show b + 4 < 8 by omega, show b < 8 by omega]
  · rw [hbyte, BitVec.getLsbD_shiftLeft]
    simp [hb]

/-- Settles O49: the ROM is stored over the reset state's image, inside memory. -/
theorem constructionLoadsTheRom : Obligations.ConstructionLoadsTheRom := by
  unfold Obligations.ConstructionLoadsTheRom
  refine fun p v i es rom => ⟨construct_tooLong p v i es, fun h => ⟨_, construct_fits p v i es h,
    byteAt_constructed p v i es h, rfl, (State.inv_resetWith p v i es).storeBytes ?_⟩⟩
  unfold Config.memSize Config.progBase
  omega

/-- Settles O50: at reset memory lists nothing and the stack holds nothing. -/
theorem resetMeetsTheInvariant : Obligations.ResetMeetsTheInvariant := by
  unfold Obligations.ResetMeetsTheInvariant
  exact State.inv_resetWith _ _ _ _

end Sys2Proof.Proofs
end
